-- ==== Sys2Proof/Word.lean ====
section
/-! DEFINITION. The word types of I2CBB: a host register is 16 bits (rule R91), a byte on the wire is
8 bits (rule R101), every value is unsigned (rule R14). -/

namespace Sys2Proof

/-- A host register or a command word, 16 bits (rules R91, R94). -/
abbrev Word := BitVec 16

/-- A byte on the wire, 8 bits (rule R101). -/
abbrev Byte := BitVec 8

end Sys2Proof
end

