-- ==== Sys2Proof/Config.lean ====
section
/-! DEFINITION. What an implementation fixes and what the spec leaves free: the pin set (rule R13), the
alphabet of the trace (rule R55), the parameters of rule R11 as plain data, and the opaque oracles
behind the free values of the model (rule R52). -/

namespace Sys2Proof

/-- The pin set of rule R13. -/
inductive Pin where
  | sda | scl | debug | trigger
  deriving DecidableEq, Repr

/-- One event of the trace (rule R55); the micro-operation events are those of rule R17. -/
inductive Event where
  /-- A command word was accepted (rule R97). -/
  | cmdBegin (w : Word)
  /-- The direction bit of a pin was written (rule R120). -/
  | wDir (p : Pin) (v : Bool)
  /-- The output bit of a pin was written (rule R121). -/
  | wOut (p : Pin) (v : Bool)
  /-- The input bit of a pin was sampled with this value (rule R122). -/
  | sample (p : Pin) (b : Bool)
  /-- At least this many microseconds were waited (rule R256). -/
  | delay (n : Nat)
  /-- A command ended and wrote this RESULT (rules R98, R241). -/
  | cmdEnd (r : Word)
  deriving DecidableEq, Repr

/-- The trace of rule R55, oldest event first. -/
abbrev Trace := List Event

/-- Where a pin sits: a port index and a mask with one bit set (rules R11, R12). -/
structure Binding where
  port : Nat
  mask : Nat
  deriving DecidableEq, Repr

/-- The parameters of rule R11. They are arguments of every claim, never picked by the model: State
carries them unchanged, so a statement over all states ranges over all parameter sets (log entry 1).
`debug` and `trigger` are `none` where HAS_DEBUG, HAS_TRIGGER are false (rule R6). -/
structure Params where
  /-- W, the width of every GPIO register. -/
  width : Nat
  /-- NPORTS, the number of GPIO register triples. -/
  nports : Nat
  sda : Binding
  scl : Binding
  debug : Option Binding
  trigger : Option Binding
  /-- GPIO_RESET_DIR, one value a port. -/
  resetDir : List Nat
  /-- GPIO_RESET_OUT, one value a port. -/
  resetOut : List Nat
  /-- START_SETTLE_US. -/
  startSettleUs : Nat := 2
  /-- PAGE_SPLIT. -/
  pageSplit : Nat := 255
  /-- PAGE_HI_OFFSET, 0..255. -/
  pageHiOffset : Byte
  /-- MAX_ATTEMPTS; `none` is the default, unbounded. -/
  maxAttempts : Option Nat := none
  /-- BLOCK_SIZE. -/
  blockSize : Nat
  /-- TOTAL_BLOCKS. -/
  totalBlocks : Nat
  /-- HOST_ADDR_WIDTH, read only by the premise of rule R221. -/
  hostAddrWidth : Nat
  deriving DecidableEq, Repr

/-- The binding of a pin, none where the pin is absent (rule R13). -/
def Params.binding (c : Params) : Pin → Option Binding
  | .sda => some c.sda
  | .scl => some c.scl
  | .debug => c.debug
  | .trigger => c.trigger

/-- present(p) of rule R13. -/
def Params.present (c : Params) (p : Pin) : Bool := (c.binding p).isSome

/-- port(p) of rule R13; no operation uses it for an absent pin. -/
def Params.port (c : Params) (p : Pin) : Nat := ((c.binding p).map (·.port)).getD 0

/-- mask(p) of rule R13; zero for an absent pin. -/
def Params.mask (c : Params) (p : Pin) : Nat := ((c.binding p).map (·.mask)).getD 0

/-- The answers of the bus environment to PullSDA, a free value (rule R52, log entry 3): does the
environment pull SDA low after this trace. No body: nothing can be proved of an answer. -/
opaque Config.pullSda : Trace → Bool

/-- The level of an input-mode DEBUG or TRIGGER pad after this trace, a free value (rules R50, R52). -/
opaque Config.padLevel : Pin → Trace → Bool

/-- The bits of IN[k] that belong to no present pin, a free value (rule R51, item I10). -/
opaque Config.unboundIn : Nat → Trace → Nat

end Sys2Proof
end

