-- ==== Sys2Proof/Syntax.lean ====
section
/-! DEFINITION. The commands of I2CBB (rule R95): one constructor per row of the opcode table, in the
table's order. Operands are decoded here once: a pin (rule R99), a Boolean (rule R100), a byte (rule
R101). -/

namespace Sys2Proof

/-- The 13 commands of rule R95. -/
inductive Instr where
  /-- INIT (rule R161). -/
  | init
  /-- START with its address byte (rule R162). -/
  | start (addr : Byte)
  /-- STOP (rule R163). -/
  | stop
  /-- WRITE_BYTE with its data byte (rule R164). -/
  | writeByte (data : Byte)
  /-- READ_BYTE with `is_last` (rule R165). -/
  | readByte (last : Bool)
  /-- IS_PRESENT (rule R166). -/
  | isPresent
  /-- DRIVE_SDA with the bit: 1 releases, 0 drives low (rule R144). -/
  | driveSda (bit : Bool)
  /-- READ_SDA (rule R145). -/
  | readSda
  /-- DRIVE_SCL with the bit: 1 high, 0 low (rule R146). -/
  | driveScl (bit : Bool)
  /-- SET_DIR with a pin and `output` (rule R124). -/
  | setDir (pin : Pin) (output : Bool)
  /-- SET_LEVEL with a pin and `high` (rule R125). -/
  | setLevel (pin : Pin) (high : Bool)
  /-- GET_LEVEL with a pin (rule R126). -/
  | getLevel (pin : Pin)
  /-- PULSE with a pin (rule R127). -/
  | pulse (pin : Pin)
  deriving DecidableEq, Repr

end Sys2Proof
end

