-- ==== Sys2Proof/WellFormed.lean ====
section
/-! DEFINITION. Which commands a parameter set admits. The operand types leave one check open: SET_DIR,
SET_LEVEL and GET_LEVEL of an absent DEBUG or TRIGGER pin are no commands (rules R96, R102). PULSE of an
absent pin is one (rules R127, R243). -/

namespace Sys2Proof

/-- The command is one that Decode can answer under these parameters (rule R96). -/
def Instr.wellFormed (c : Params) : Instr → Bool
  | .init | .start _ | .stop | .writeByte _ | .readByte _ | .isPresent => true
  | .driveSda _ | .readSda | .driveScl _ => true
  | .setDir p _ => c.present p
  | .setLevel p _ => c.present p
  | .getLevel p => c.present p
  | .pulse _ => true

end Sys2Proof
end

