-- ==== Sys2Proof/Decode.lean ====
section
/-! DEFINITION. The decoder of rule R96, total on every 16-bit word and refusing by name, over the opcode
rows of rule R95; and the encoder, from the same rows and the operand fields of rules R94, R99, R100 and
R101. -/

namespace Sys2Proof

/-- The command errors of rule R241, by the names of its table. -/
inductive CommandError where
  /-- ECODE 1: OPC is 0x0, 0x7 or 0xB. -/
  | illegalOpcode
  /-- ECODE 2: a bit outside the command's fields is 1. -/
  | nonzeroUnused
  /-- ECODE 3: PIN selects an absent pin. -/
  | absentPin
  deriving DecidableEq, Repr

/-- ECODE of a command error (rule R241). -/
def CommandError.code : CommandError → Word
  | .illegalOpcode => 1
  | .nonzeroUnused => 2
  | .absentPin => 3

/-- One row of rule R95. -/
structure OpRow where
  mnemonic : String
  mat : Word
  mask : Word
  deriving DecidableEq, Repr

/-- The rows of rule R95, in opcode order. -/
def opTable : List OpRow :=
  [ ⟨"INIT", 0x1000, 0xFFFF⟩, ⟨"START", 0x2000, 0xFF00⟩, ⟨"STOP", 0x3000, 0xFFFF⟩,
    ⟨"WRITE_BYTE", 0x4000, 0xFF00⟩, ⟨"READ_BYTE", 0x5000, 0xFEFF⟩,
    ⟨"IS_PRESENT", 0x6000, 0xFFFF⟩ ] ++
  [ ⟨"DRIVE_SDA", 0x8000, 0xFEFF⟩, ⟨"READ_SDA", 0x9000, 0xFFFF⟩,
    ⟨"DRIVE_SCL", 0xA000, 0xFEFF⟩ ] ++
  [ ⟨"SET_DIR", 0xC000, 0xF2FF⟩, ⟨"SET_LEVEL", 0xD000, 0xF2FF⟩,
    ⟨"GET_LEVEL", 0xE000, 0xF3FF⟩, ⟨"PULSE", 0xF000, 0xF3FF⟩ ]

/-- OPC = w[15:12] (rule R94). -/
def opcOf (w : Word) : BitVec 4 := w.extractLsb' 12 4

/-- PIN = w[11:10] (rule R94). -/
def pinField (w : Word) : BitVec 2 := w.extractLsb' 10 2

/-- B = w[8] (rule R94). -/
def boolField (w : Word) : Bool := w.getLsbD 8

/-- DATA = w[7:0] (rule R94). -/
def dataField (w : Word) : Byte := w.extractLsb' 0 8

/-- pin_of (rule R99). -/
def pinOf (n : BitVec 2) : Pin :=
  if n = 0 then .sda else if n = 1 then .scl else if n = 2 then .debug else .trigger

/-- The PIN field that selects a pin (rule R99). -/
def pinCode : Pin → BitVec 2
  | .sda => 0
  | .scl => 1
  | .debug => 2
  | .trigger => 3

/-- The row of an opcode, none for OPC 0x0, 0x7 and 0xB (rule R95). -/
def rowOf (opc : BitVec 4) : Option OpRow := opTable.find? fun r => opcOf r.mat = opc

/-- The command an opcode names, with the operands its row uses (rules R95, R99 to R101); none for an
opcode with no row. -/
def commandOf (w : Word) : Option Instr :=
  match (opcOf w).toNat with
  | 0x1 => some .init
  | 0x2 => some (.start (dataField w))
  | 0x3 => some .stop
  | 0x4 => some (.writeByte (dataField w))
  | 0x5 => some (.readByte (boolField w))
  | 0x6 => some .isPresent
  | 0x8 => some (.driveSda (boolField w))
  | 0x9 => some .readSda
  | 0xA => some (.driveScl (boolField w))
  | 0xC => some (.setDir (pinOf (pinField w)) (boolField w))
  | 0xD => some (.setLevel (pinOf (pinField w)) (boolField w))
  | 0xE => some (.getLevel (pinOf (pinField w)))
  | 0xF => some (.pulse (pinOf (pinField w)))
  | _ => none

/-- Decode(w) of rule R96: the illegal opcodes first, then the unused bits, then the absent pins. -/
def decode (c : Params) (w : Word) : Except CommandError Instr :=
  match rowOf (opcOf w), commandOf w with
  | some row, some i =>
    if w &&& row.mask ≠ row.mat then .error .nonzeroUnused
    else if i.wellFormed c then .ok i
    else .error .absentPin
  | _, _ => .error .illegalOpcode

/-- A command word from its opcode and fields, RSV = 0 (rule R94). -/
def packWord (opc : BitVec 4) (pin : BitVec 2) (b : Bool) (data : Byte) : Word :=
  opc ++ pin ++ (0 : BitVec 1) ++ BitVec.ofBool b ++ data

/-- The command word of a command (rules R94, R95, R104): unused fields are 0. -/
def encode : Instr → Word
  | .init => packWord 0x1 0 false 0
  | .start a => packWord 0x2 0 false a
  | .stop => packWord 0x3 0 false 0
  | .writeByte d => packWord 0x4 0 false d
  | .readByte l => packWord 0x5 0 l 0
  | .isPresent => packWord 0x6 0 false 0
  | .driveSda b => packWord 0x8 0 b 0
  | .readSda => packWord 0x9 0 false 0
  | .driveScl b => packWord 0xA 0 b 0
  | .setDir p b => packWord 0xC (pinCode p) b 0
  | .setLevel p b => packWord 0xD (pinCode p) b 0
  | .getLevel p => packWord 0xE (pinCode p) false 0
  | .pulse p => packWord 0xF (pinCode p) false 0

/-- The row of a command's mnemonic (rule R95). -/
def Instr.mnemonic : Instr → String
  | .init => "INIT"
  | .start _ => "START"
  | .stop => "STOP"
  | .writeByte _ => "WRITE_BYTE"
  | .readByte _ => "READ_BYTE"
  | .isPresent => "IS_PRESENT"
  | .driveSda _ => "DRIVE_SDA"
  | .readSda => "READ_SDA"
  | .driveScl _ => "DRIVE_SCL"
  | .setDir _ _ => "SET_DIR"
  | .setLevel _ _ => "SET_LEVEL"
  | .getLevel _ => "GET_LEVEL"
  | .pulse _ => "PULSE"

/-- The example parameter set that State.reset uses (log entry 2): the reference parameters P-REF of
95_test_vectors.md section 1, with the TRIGGER pin of its HAS_TRIGGER = 1 vectors, so that no form of a
command is shut out by an absent pin. BLOCK_SIZE and TOTAL_BLOCKS are those of its program PR5, and
HOST_ADDR_WIDTH, which no file gives a value, is 16. -/
def Params.chosen : Params where
  width := 8
  nports := 1
  sda := ⟨0, 0x01⟩
  scl := ⟨0, 0x02⟩
  debug := some ⟨0, 0x04⟩
  trigger := some ⟨0, 0x08⟩
  resetDir := [0x00]
  resetOut := [0x00]
  pageHiOffset := 0x02
  blockSize := 16
  totalBlocks := 2
  hostAddrWidth := 16

/-- The command the decoder reads from a table word of `nbits` bits, under the parameters of
State.reset: a command is one 16-bit word (rule R103), its two bytes little-endian (rule R78). -/
def decodeTableWord (nbits w : Nat) : Option Instr :=
  match decode Params.chosen (BitVec.ofNat 16 (w % 2 ^ nbits)) with
  | .ok i => some i
  | .error _ => none

end Sys2Proof
end

