-- ==== Sys2Proof/Machine/State.lean ====
section
/-! DEFINITION. The state of I2CBB (rule R30) as plain data, with the host software and the bus
environment beside it: what the spec gives the machine, what the host software of 44_paged_host.md and
45_block_iterator_host.md keeps, and the model's own fields that stand for the outside world. Then the
reasons a step can stop, and the state after reset (rules R61, R272). -/

namespace Sys2Proof.Machine

/-- The model fault mark MF of rule R57, less its `None`. -/
inductive ModelFault where
  /-- MF_UNCONFIGURED (rule R245). -/
  | unconfigured
  /-- MF_SDA_CONTENTION (rule R246). -/
  | sdaContention
  deriving DecidableEq, Repr

/-- The two written registers of one GPIO port (rule R41). The width W is a parameter, so a register is
a number below 2^W (log entry 4); IN is not stored, its bits are the pads (rule R51). -/
structure Port where
  dir : Nat
  out : Nat
  deriving DecidableEq, Repr

/-- The GPIO register file (rule R41), port 0 first. -/
abbrev Gpio := List Port

/-- Host memory, where the buffers of the host software lie (rules R71, R200): address and byte pairs,
addresses rising, no byte that an unlisted address reads as. -/
abbrev Memory := List Host.Cell

/-- The parameters of the reference slave RS of 95_test_vectors.md section 1. -/
structure RefSlave where
  /-- A7. -/
  addr7 : BitVec 7
  /-- HI7; `none` is RS1. -/
  hi7 : Option (BitVec 7)
  /-- MEM, keyed by page * 256 + offset; an unlisted cell holds 0xFF. -/
  mem : List (Nat × Byte)
  /-- BUSY_N. -/
  busyN : Nat
  deriving DecidableEq, Repr

/-- The bus environment of rule R52 as plain data. It is part of the world, not of the block: no step
changes it, and a statement over all states holds for every environment of each kind (log entry 3). -/
inductive Env where
  /-- Every answer is a free value: Config.pullSda and Config.padLevel. -/
  | unconstrained
  /-- The traces after which SDA is pulled low, and the pads and traces that read high. -/
  | finite (sdaLow : List Trace) (padHigh : List (Pin × Trace))
  /-- The reference slave on SDA; the pads are free values. -/
  | slave (rs : RefSlave)
  deriving DecidableEq, Repr

/-- What the host does next: a host access of rule R92 (`width` in bits, so that rule R93 can refuse
one), or a host sequence of rules R207, R208, R225 on a buffer of host memory. -/
inductive HostStep where
  | write (off width : Nat) (v : Word)
  | read (off width : Nat)
  | load (page offset buf count : Nat)
  | save (page offset buf count : Nat)
  | flashRead (addr buf bytes : Nat)
  | flashSave (addr buf bytes : Nat)
  deriving DecidableEq, Repr

/-- The direction of a transfer: LOAD or SAVE (rules R207, R208). -/
inductive Xfer where
  | load | save
  deriving DecidableEq, Repr

/-- One LOAD or SAVE in progress: the selected device, the two address bytes, where the buffer starts
and how many bytes it moves (rules R203, R207, R208). -/
structure Job where
  op : Xfer
  dev : Byte
  pageByte : Byte
  offsetByte : Byte
  buf : Nat
  count : Nat
  deriving DecidableEq, Repr

/-- Which command of the sequence comes next (rules R203, R204, R207, R208). -/
inductive Phase where
  /-- START dev, after this many failed attempts. -/
  | start (attempts : Nat)
  /-- PULSE DEBUG after a failed attempt. -/
  | pulse (attempts : Nat)
  /-- WRITE_BYTE of the page byte. -/
  | page
  /-- WRITE_BYTE of the offset byte. -/
  | offset
  /-- START dev with the read bit. -/
  | readStart
  /-- READ_BYTE or WRITE_BYTE of data byte j. -/
  | data (j : Nat)
  /-- STOP, then return this count. -/
  | stop (ret : Nat)
  deriving DecidableEq, Repr

/-- The loop variables of ITERATE and the counter of FLASH_READ and FLASH_SAVE (rules R222, R225). -/
structure Flash where
  op : Xfer
  addr : Nat
  remaining : Nat
  ptr : Nat
  counter : Nat
  buf : Nat
  deriving DecidableEq, Repr

/-- The host sequence in progress. -/
inductive Task where
  | idle
  /-- LOAD or SAVE, alone or as a chunk of the iterator. -/
  | transfer (job : Job) (phase : Phase) (parent : Option Flash)
  /-- At the top of the loop of ITERATE. -/
  | iterate (f : Flash)
  deriving DecidableEq, Repr

/-- The host beside the block (rules R3, R200): its coming steps, its sequence in progress, its memory,
the value its last read gave, and the value its last sequence returned. -/
structure HostSide where
  queue : List HostStep
  task : Task
  mem : Memory
  readData : Option Word
  returned : Option Nat
  deriving DecidableEq, Repr

/-- The state of rule R30, its parameters (rule R11, constant), its environment (rule R52, constant) and
its host. -/
structure State where
  /-- The parameters of rule R11; no step changes them. -/
  params : Params
  /-- DIR[k] and OUT[k] (rule R41). -/
  gpio : Gpio
  /-- RESULT (rule R35). -/
  result : Word
  /-- CFG_ADDR (rule R36). -/
  cfgAddr : Word
  /-- CFG_DELAY (rule R37). -/
  cfgDelay : Word
  /-- ADDR_SET (rule R39). -/
  addrSet : Bool
  /-- DELAY_SET (rule R39). -/
  delaySet : Bool
  /-- MF (rule R57). -/
  mf : Option ModelFault
  /-- REFUSED (rule R58). -/
  refused : Bool
  /-- TRACE (rule R55). -/
  trace : Trace
  /-- The bus environment (rule R52); no step changes it. -/
  env : Env
  /-- The host (rules R92, R200). -/
  host : HostSide
  deriving DecidableEq, Repr

/-- Why a run ends in a fault: rule R244 ends it with a sticky mark. -/
inductive Fault where
  /-- Answered by every step and every meaning in a state whose MF is this mark: "no command runs in it"
  (rule R57). The step that raised the mark was a next state. Safe: nothing more is claimed of such a
  run. -/
  | halted (m : ModelFault)
  deriving DecidableEq, Repr

/-- Why there is no step. -/
inductive Refusal where
  /-- An instruction whose meaning is not written, by its mnemonic. Raised by no arm of this model.
  Safe. -/
  | notModelled (mnemonic : String)
  /-- Answered by every step and every meaning in a state with REFUSED = 1: "has no step" (rule R58).
  The step that set the mark was a next state. Safe. -/
  | hostRefused
  /-- Answered by every step and every meaning under a parameter set that breaks rule R12: "A model
  refuses a parameter set that breaks this rule". Safe. -/
  | parameterSet
  deriving DecidableEq, Repr

/-- GPIO as the platform leaves it at reset (rules R61, R271). -/
def resetGpio (c : Params) : Gpio := List.zipWith Port.mk c.resetDir c.resetOut

/-- The state after reset for every choice of the open parameters, of the environment and of the host
(rules R61, R272). CFG_ADDR and CFG_DELAY are unspecified there: zero is the model's, and rule R245
keeps every read of it from succeeding (log entry 5). -/
def State.resetWith (c : Params) (e : Env) (h : HostSide) : State where
  params := c
  gpio := resetGpio c
  result := 0x0000
  cfgAddr := 0x0000
  cfgDelay := 0x0000
  addrSet := false
  delaySet := false
  mf := none
  refused := false
  trace := []
  env := e
  host := h

/-- A host with nothing to do and nothing in its memory (log entries 6, 7). -/
def HostSide.initial : HostSide where
  queue := []
  task := .idle
  mem := []
  readData := none
  returned := none

/-- The machine right after reset (rules R61, R272), under the parameters of log entry 2, in an
environment whose answers are free values. -/
def State.reset : State := State.resetWith Params.chosen .unconstrained HostSide.initial

end Sys2Proof.Machine
end

