-- ==== Sys2Proof/Machine/BlockIterator.lean ====
section
/-! DEFINITION. The flash block iterator, host software (rules R220 to R224): the next chunk of ITERATE, and
the whole list of chunks. -/

namespace Sys2Proof.Machine

/-- One call of the chunk function: (block, offset, size, ptr) (rule R222). -/
structure Chunk where
  block : Nat
  offset : Nat
  size : Nat
  ptr : Nat
  deriving DecidableEq, Repr

/-- The body of the loop of ITERATE for a device of `total` blocks of `bsize` bytes: the chunk at `addr`,
none where the loop ends or aborts (rule R222). -/
def nextChunk (bsize total addr remaining ptr : Nat) : Option Chunk :=
  if remaining = 0 then none
  else if total ≤ addr / bsize then none
  else some ⟨addr / bsize, addr % bsize, min remaining (bsize - addr % bsize), ptr⟩

/-- The chunks of the loop, at most `fuel` of them (rule R222). -/
def chunksFrom (bsize total : Nat) : Nat → Nat → Nat → Nat → List Chunk
  | 0, _, _, _ => []
  | fuel + 1, addr, remaining, ptr =>
    match nextChunk bsize total addr remaining ptr with
    | none => []
    | some k => k :: chunksFrom bsize total fuel (addr + k.size) (remaining - k.size) (ptr + k.size)

/-- The chunks of ITERATE(addr, bytes, chunk): each moves at least one byte, so `bytes` bounds their
number (rules R222, R223). -/
def chunks (bsize total addr bytes : Nat) : List Chunk := chunksFrom bsize total bytes addr bytes 0

/-- The bytes the chunks service (rule R224). -/
def serviced (ks : List Chunk) : Nat := (ks.map Chunk.size).sum

end Sys2Proof.Machine
end

