-- ==== Sys2Proof/Machine/Gpio.lean ====
section
/-! DEFINITION. The GPIO register file: reading and writing a register, the read-modify-write of one pin's
bit, and the drive of a pin as a function of the registers (rules R15, R16, R47, R72, R73). -/

namespace Sys2Proof.Machine

/-- The registers of a port that I2CBB writes (rule R73). -/
inductive Reg where
  | dir | out
  deriving DecidableEq, Repr

/-- Port k; a port outside the file, which no binding reaches, reads as zeros. -/
def portOf (g : Gpio) (k : Nat) : Port := g.getD k ⟨0, 0⟩

/-- MemRead of DIR[k] or OUT[k] (rules R16, R72). -/
def memRead (g : Gpio) (r : Reg) (k : Nat) : Nat :=
  match r with
  | .dir => (portOf g k).dir
  | .out => (portOf g k).out

/-- MemWrite of DIR[k] or OUT[k] (rule R16). -/
def memWrite (g : Gpio) (r : Reg) (k : Nat) (v : Nat) : Gpio :=
  match r with
  | .dir => g.set k { portOf g k with dir := v }
  | .out => g.set k { portOf g k with out := v }

/-- The complement of a value at width W (rule R14). -/
def complementAt (width m : Nat) : Nat := (2 ^ width - 1) ^^^ m

/-- The read-modify-write of rule R73: set or clear bit mask(p) of a register of port(p). -/
def rmw (c : Params) (g : Gpio) (r : Reg) (p : Pin) (v : Bool) : Gpio :=
  let old := memRead g r (c.port p)
  if v then memWrite g r (c.port p) (old ||| c.mask p)
  else memWrite g r (c.port p) (old &&& complementAt c.width (c.mask p))

/-- dir(p) and out(p) of rule R15. -/
def regBit (c : Params) (g : Gpio) (r : Reg) (p : Pin) : Bool :=
  memRead g r (c.port p) &&& c.mask p != 0

/-- The master's drive of a pin (rule R47). -/
inductive Drive where
  | released | low | high
  deriving DecidableEq, Repr

/-- drive(p) from the pin's direction and output bits (rule R47). -/
def driveOf (dir out : Bool) : Drive :=
  if dir then (if out then .high else .low) else .released

/-- drive(p) of rule R47. -/
def drive (c : Params) (g : Gpio) (p : Pin) : Drive :=
  driveOf (regBit c g .dir p) (regBit c g .out p)

/-- The master's contribution to the SDA line (rule R47). -/
def msda (c : Params) (g : Gpio) : Bool := drive c g .sda != .low

/-- The master's contribution to the SCL line, which is the SCL line level (rules R47, R49). -/
def mscl (c : Params) (g : Gpio) : Bool :=
  if regBit c g .dir .scl then regBit c g .out .scl else true

/-- A value has exactly one bit set, below bit `width` (rule R12). -/
def oneHot (width m : Nat) : Bool := (List.range width).any fun i => m == 2 ^ i

/-- A binding that rule R12 admits: a one-hot mask of W bits on a port that exists. -/
def bindingOk (c : Params) (b : Binding) : Bool := oneHot c.width b.mask && b.port < c.nports

/-- The bindings of the present pins (rule R13). -/
def presentBindings (c : Params) : List Binding :=
  [Pin.sda, Pin.scl, Pin.debug, Pin.trigger].filterMap c.binding

/-- The parameter sets the model admits: the pin binding constraints of rule R12, the shape of the
register file (rules R11, R41), and a settle delay that rule R256 admits (log entry 8). -/
def paramsOk (c : Params) : Bool :=
  decide (1 ≤ c.width) && decide (1 ≤ c.nports)
    && (presentBindings c).all (bindingOk c) && decide (presentBindings c).Nodup
    && c.resetDir.length == c.nports && c.resetOut.length == c.nports
    && c.resetDir.all (· < 2 ^ c.width) && c.resetOut.all (· < 2 ^ c.width)
    && decide (1 ≤ c.startSettleUs) && decide (c.startSettleUs ≤ 65535)

/-- The register file has the shape of rule R41: NPORTS ports, each register W bits. -/
def gpioOk (c : Params) (g : Gpio) : Bool :=
  g.length == c.nports && g.all fun q => q.dir < 2 ^ c.width && q.out < 2 ^ c.width

/-- The effect of one event of the trace on the register file: only WDir and WOut have one (rule R82). -/
def writeOf (c : Params) (g : Gpio) : Event → Gpio
  | .wDir p v => rmw c g .dir p v
  | .wOut p v => rmw c g .out p v
  | .cmdBegin _ | .sample _ _ | .delay _ | .cmdEnd _ => g

/-- The register file after a list of events. -/
def replay (c : Params) (g : Gpio) (es : List Event) : Gpio := es.foldl (writeOf c) g

/-- The bus view of rule R56: the pair (msda, mscl) after each event, from the register file before the
first. -/
def busView (c : Params) (g : Gpio) : List Event → List (Bool × Bool)
  | [] => []
  | e :: es => let g' := writeOf c g e; (msda c g', mscl c g') :: busView c g' es

end Sys2Proof.Machine
end

