-- ==== Sys2Proof/Machine/RefSlave.lean ====
section
/-! DEFINITION. The reference slave RS of 95_test_vectors.md section 1 (item I7): a state machine fed with
the bus view after every event, answering PullSDA. It is one environment of rule R52 that a claim may take
as its premise; nothing says that a real slave is it (log entry 9). -/

namespace Sys2Proof.Machine

/-- What RS is doing. -/
inductive SlavePhase where
  /-- Idle, not addressed, or waiting for a STOP: ignores everything until the next START. -/
  | ignoring
  | address
  | pageByte
  | offsetByte
  | dataByte
  | transmit
  deriving DecidableEq, Repr

/-- RS between two events. -/
structure SlaveState where
  phase : SlavePhase
  /-- SCL rising edges seen in the current byte. -/
  rises : Nat
  /-- The byte being received. -/
  shift : Byte
  /-- The acknowledgment sampled from the master at the 9th rising edge. -/
  acked : Bool
  /-- The write address selected the high pages. -/
  hi : Bool
  page : Nat
  offset : Nat
  /-- Data bytes of the write not yet committed, oldest first. -/
  buffered : List Byte
  /-- Address bytes it still refuses. -/
  busy : Nat
  mem : List (Nat × Byte)
  /-- RS pulls SDA low. -/
  pull : Bool
  /-- The bus view after the last event. -/
  msda : Bool
  mscl : Bool
  deriving DecidableEq, Repr

/-- MEM[page][offset]; unwritten cells hold 0xFF. -/
def slaveByte (s : SlaveState) : Byte :=
  ((s.mem.find? fun e => e.1 = s.page * 256 + s.offset).map (·.2)).getD 0xFF

/-- Bit n of the byte RS sends is 0, so RS pulls. -/
def slavePullFor (s : SlaveState) (n : Nat) : Bool := !(slaveByte s).getLsbD n

/-- The cells a STOP commits: byte j goes to MEM[page][(offset + j) mod 256]. -/
def slaveCells (page offset : Nat) : List Byte → List (Nat × Byte)
  | [] => []
  | b :: bs => (page * 256 + offset, b) :: slaveCells page ((offset + 1) % 256) bs

/-- START: enter the address state and clear the bit counter. -/
def slaveStart (s : SlaveState) : SlaveState :=
  { s with phase := .address, rises := 0, shift := 0, pull := false }

/-- STOP: commit the buffered bytes of a write, be busy if there were any, go idle, release SDA. -/
def slaveStop (cfg : RefSlave) (s : SlaveState) : SlaveState :=
  let idle := { s with phase := .ignoring, rises := 0, pull := false, buffered := [] }
  if s.buffered.isEmpty then idle
  else { idle with
    mem := (slaveCells s.page s.offset s.buffered).reverse ++ s.mem
    offset := (s.offset + s.buffered.length) % 256
    busy := cfg.busyN }

/-- SCL rises with this SDA line level: shift in one of bits 1 to 8, or sample the master's
acknowledgment at the 9th edge of a byte sent. -/
def slaveRise (s : SlaveState) (line : Bool) : SlaveState :=
  match s.phase with
  | .ignoring => s
  | .transmit =>
    if s.rises = 8 then { s with rises := 9, acked := !line } else { s with rises := s.rises + 1 }
  | _ =>
    if s.rises < 8 then
      { s with rises := s.rises + 1, shift := (s.shift <<< 1) ||| (BitVec.ofBool line).setWidth 8 }
    else { s with rises := s.rises + 1 }

/-- The address byte has matched or not: the 7-bit part is A7 or HI7. -/
def slaveMatches (cfg : RefSlave) (s : SlaveState) : Bool :=
  let a := s.shift.extractLsb' 1 7
  a == cfg.addr7 || some a == cfg.hi7

/-- The falling edge after the 8th rising edge of a byte received: decide the acknowledgment. -/
def slaveDecide (cfg : RefSlave) (s : SlaveState) : SlaveState :=
  match s.phase with
  | .address =>
    if slaveMatches cfg s then
      if s.busy = 0 then { s with pull := true }
      else { s with phase := .ignoring, busy := s.busy - 1 }
    else { s with phase := .ignoring }
  | _ => { s with pull := true }

/-- The falling edge after the 9th rising edge of a byte received: release SDA, take the byte. After a
read address RS starts to send at this edge. -/
def slaveTake (cfg : RefSlave) (s : SlaveState) : SlaveState :=
  let next := { s with rises := 0, shift := 0, pull := false }
  match s.phase with
  | .address =>
    if s.shift.getLsbD 0 then { next with phase := .transmit, pull := slavePullFor s 7 }
    else { next with phase := .pageByte, hi := some (s.shift.extractLsb' 1 7) == cfg.hi7, buffered := [] }
  | .pageByte =>
    { next with phase := .offsetByte, page := (if s.hi then 256 else 0) + s.shift.toNat }
  | .offsetByte => { next with phase := .dataByte, offset := s.shift.toNat }
  | .dataByte => { next with buffered := s.buffered ++ [s.shift] }
  | .ignoring | .transmit => next

/-- A falling edge while RS sends: the next bit, then the release for the master's acknowledgment, then
the next byte or the end. -/
def slaveSend (s : SlaveState) : SlaveState :=
  if s.rises < 8 then { s with pull := slavePullFor s (7 - s.rises) }
  else if s.rises = 8 then { s with pull := false }
  else
    let t := { s with rises := 0, offset := (s.offset + 1) % 256 }
    if s.acked then { t with pull := slavePullFor t 7 }
    else { t with phase := .ignoring, pull := false }

/-- SCL falls. -/
def slaveFall (cfg : RefSlave) (s : SlaveState) : SlaveState :=
  match s.phase with
  | .ignoring => s
  | .transmit => slaveSend s
  | _ =>
    if s.rises = 8 then slaveDecide cfg s
    else if s.rises = 9 then slaveTake cfg s
    else s

/-- RS after one event, from the bus view after it. -/
def slaveEvent (cfg : RefSlave) (s : SlaveState) (view : Bool × Bool) : SlaveState :=
  let before := s.msda && !s.pull
  let after := view.1 && !s.pull
  let t :=
    if s.mscl && view.2 then
      if before && !after then slaveStart s
      else if !before && after then slaveStop cfg s
      else s
    else if view.2 && !s.mscl then slaveRise s after
    else if s.mscl && !view.2 then slaveFall cfg s
    else s
  { t with msda := view.1, mscl := view.2 }

/-- RS before the first event of a trace. -/
def slaveInitial (cfg : RefSlave) (c : Params) : SlaveState where
  phase := .ignoring
  rises := 0
  shift := 0
  acked := false
  hi := false
  page := 0
  offset := 0
  buffered := []
  busy := 0
  mem := cfg.mem
  pull := false
  msda := msda c (resetGpio c)
  mscl := mscl c (resetGpio c)

/-- RS after a trace since reset. -/
def slaveAfter (cfg : RefSlave) (c : Params) (h : Trace) : SlaveState :=
  (busView c (resetGpio c) h).foldl (slaveEvent cfg) (slaveInitial cfg c)

end Sys2Proof.Machine
end

