-- ==== Sys2Proof/Machine/Environment.lean ====
section
/-! DEFINITION. The two questions of the bus environment (rule R52), answered from the trace. -/

namespace Sys2Proof.Machine

/-- PullSDA(h): the environment pulls SDA low after this trace (rule R52). -/
def envPullsSda (e : Env) (c : Params) (h : Trace) : Bool :=
  match e with
  | .unconstrained => Config.pullSda h
  | .finite sdaLow _ => decide (h ∈ sdaLow)
  | .slave rs => (slaveAfter rs c h).pull

/-- PadLevel(p, h): the level of an input-mode DEBUG or TRIGGER pad after this trace (rules R50, R52). -/
def envPadLevel (e : Env) (p : Pin) (h : Trace) : Bool :=
  match e with
  | .unconstrained => Config.padLevel p h
  | .finite _ padHigh => decide ((p, h) ∈ padHigh)
  | .slave _ => Config.padLevel p h

end Sys2Proof.Machine
end

