-- ==== Sys2Proof/Machine/Flags.lean ====
section
/-! DEFINITION. The words the host reads: RESULT after a command and after a command error (rules R33, R35,
R98, R241), CAPS (rule R38), and the acknowledgment flag (rule R172). -/

namespace Sys2Proof.Machine

/-- What a command returns: its Boolean and its byte, each 0 where it returns none (rule R98). -/
structure Reply where
  flag : Bool
  data : Byte
  deriving DecidableEq, Repr

/-- The reply of a command that returns nothing. -/
def Reply.nothing : Reply := ⟨false, 0⟩

/-- The reply of a command that returns a Boolean. -/
def Reply.ofFlag (b : Bool) : Reply := ⟨b, 0⟩

/-- The reply of a command that returns a byte. -/
def Reply.ofByte (d : Byte) : Reply := ⟨false, d⟩

/-- A Boolean widened to 16 bits (rule R14). -/
def zextBool (b : Bool) : Word := (BitVec.ofBool b).setWidth 16

/-- RESULT after a command without error: flag << 8 | data (rule R98). -/
def resultWord (r : Reply) : Word := (zextBool r.flag <<< 8) ||| r.data.setWidth 16

/-- RESULT after a command error: 0x8000 | (code << 12) (rule R241). -/
def errorWord (e : CommandError) : Word := 0x8000 ||| (e.code <<< 12)

/-- CAPS: HAS_DEBUG in bit 0, HAS_TRIGGER in bit 1 (rule R38). -/
def capsWord (c : Params) : Word :=
  (zextBool (c.present .trigger) <<< 1) ||| zextBool (c.present .debug)

/-- "acknowledgment is true when the sampled bit is zero" (rules R33, R164, R172). -/
def ackOf (sample : Bool) : Bool := !sample

end Sys2Proof.Machine
end

