-- ==== Sys2Proof/Machine/Operands.lean ====
section
/-! DEFINITION. The operand forms: the bits of a byte operand in the order they go on the wire (rules R76,
R101), and the byte assembled from sampled bits (rule R173). PIN and B are decoded by Decode (rules R99,
R100). -/

namespace Sys2Proof.Machine

/-- The loop `for i = 7 downto 0` of rule R19: the bit indices of a byte in wire order. -/
def msbFirst : List Nat := [7, 6, 5, 4, 3, 2, 1, 0]

/-- d[i] of a byte operand (rule R101). -/
def bitOf (d : Byte) (i : Nat) : Bool := d.getLsbD i

/-- `if s = 1: r[i] <- 1` (rule R165). -/
def setBitIf (r : Byte) (i : Nat) (s : Bool) : Byte := if s then r ||| (1#8 <<< i) else r

end Sys2Proof.Machine
end

