-- ==== Sys2Proof/Machine/Ops.lean ====
section
/-! DEFINITION. The named operations every command is built from: one update per part of the state, the
micro-operations of rules R120 to R123 and R256, the end of a command, the two ways a command ends
otherwise (rules R241, R244), and the checks before a command runs (rules R92, R97). -/

namespace Sys2Proof.Machine

/-! One update per part of the state. -/

/-- Replace the register file. -/
def State.setGpio (s : State) (g : Gpio) : State := { s with gpio := g }

/-- Append one event to TRACE (rule R55). -/
def State.emit (s : State) (e : Event) : State := { s with trace := s.trace ++ [e] }

/-- RESULT <- r. -/
def State.setResult (s : State) (r : Word) : State := { s with result := r }

/-- A host write of CFG_ADDR: bits 7:0 are stored, ADDR_SET <- 1 (rules R36, R92). -/
def State.setCfgAddr (s : State) (v : Word) : State :=
  { s with cfgAddr := (v.extractLsb' 0 8).setWidth 16, addrSet := true }

/-- A host write of CFG_DELAY: stored, DELAY_SET <- 1 (rules R37, R92). -/
def State.setCfgDelay (s : State) (v : Word) : State := { s with cfgDelay := v, delaySet := true }

/-- `fault MF_x`: MF <- MF_x (rules R18, R244). RESULT is not written, nothing is appended, and what was
done before stands. -/
def State.raise (s : State) (m : ModelFault) : State := { s with mf := some m }

/-- REFUSED <- 1 (rules R58, R93, R248). -/
def State.refuse (s : State) : State := { s with refused := true }

/-- Replace the host. -/
def State.setHost (s : State) (h : HostSide) : State := { s with host := h }

/-! What the state shows. -/

/-- dir(p) of rule R15. -/
def State.dirBit (s : State) (p : Pin) : Bool := regBit s.params s.gpio .dir p

/-- out(p) of rule R15. -/
def State.outBit (s : State) (p : Pin) : Bool := regBit s.params s.gpio .out p

/-- drive(p) of rule R47. -/
def State.driveOf (s : State) (p : Pin) : Drive := drive s.params s.gpio p

/-- Env(PullSDA(TRACE)) (rules R20, R52). -/
def State.pullsSda (s : State) : Bool := envPullsSda s.env s.params s.trace

/-- Env(PadLevel(p, TRACE)) (rules R20, R52). -/
def State.padLevel (s : State) (p : Pin) : Bool := envPadLevel s.env p s.trace

/-- The level of a pin's line or pad now, the value Sample returns (rules R48 to R50, R122). Only a
released SDA and an input-mode DEBUG or TRIGGER pad ask the environment. -/
def State.level (s : State) (p : Pin) : Bool :=
  match p with
  | .sda =>
    match s.driveOf .sda with
    | .low => false
    | .high => true
    | .released => !s.pullsSda
  | .scl => mscl s.params s.gpio
  | .debug => if s.dirBit .debug then s.outBit .debug else s.padLevel .debug
  | .trigger => if s.dirBit .trigger then s.outBit .trigger else s.padLevel .trigger

/-- One bit of an IN register: the level of pin p where p is present and on port k, else as it was. -/
def State.inBit (s : State) (k v : Nat) (p : Pin) : Nat :=
  if s.params.present p && s.params.port p == k then
    if s.level p then v ||| s.params.mask p
    else v &&& complementAt s.params.width (s.params.mask p)
  else v

/-- MemRead of IN[k] (rules R51, R74): in the bit of each present pin of port k the level of its line or
pad, in every other bit a free value (item I10). -/
def State.memReadIn (s : State) (k : Nat) : Nat :=
  [Pin.sda, .scl, .debug, .trigger].foldl (s.inBit k)
    (Config.unboundIn k s.trace % 2 ^ s.params.width)

/-! The micro-operations. Each does nothing once MF is set: "later micro-operations do not happen" (rule
R249). -/

/-- `f` if no model fault has ended the command (rules R244, R249). -/
def State.unlessFaulted (s : State) (f : State) : State := if s.mf.isSome then s else f

/-- After a write of an SDA bit: the fault of rule R53 where SDA is driven high and the environment pulls
it low (rules R120, R121, R246). -/
def State.shortCheck (s : State) : State :=
  if s.driveOf .sda = .high ∧ s.pullsSda = true then s.raise .sdaContention else s

/-- WDir(p, v) (rule R120). -/
def wDir (p : Pin) (v : Bool) (s : State) : State :=
  s.unlessFaulted <|
    let t := (s.setGpio (rmw s.params s.gpio .dir p v)).emit (.wDir p v)
    if p = .sda then t.shortCheck else t

/-- WOut(p, v) (rule R121). -/
def wOut (p : Pin) (v : Bool) (s : State) : State :=
  s.unlessFaulted <|
    let t := (s.setGpio (rmw s.params s.gpio .out p v)).emit (.wOut p v)
    if p = .sda then t.shortCheck else t

/-- Sample(p) (rule R122): the level, and the state with the event appended. -/
def sample (p : Pin) (s : State) : Bool × State :=
  (s.level p, s.unlessFaulted (s.emit (.sample p (s.level p))))

/-- Delay(n) (rule R256): time is not state, the event is the record. -/
def delay (n : Nat) (s : State) : State := s.unlessFaulted (s.emit (.delay n))

/-- pulse(p) (rule R123): low then high, a no-op for an absent pin. -/
def pulseSeq (p : Pin) (s : State) : State :=
  if s.params.present p then wOut p true (wOut p false s) else s

/-! How a command ends. -/

/-- RESULT <- flag << 8 | data, then CmdEnd (rules R97, R98); nothing after a model fault (rule R244). -/
def State.finish (s : State) (r : Reply) : State :=
  s.unlessFaulted ((s.setResult (resultWord r)).emit (.cmdEnd (resultWord r)))

/-- `raise CommandError(code)` (rules R18, R241): RESULT and CmdEnd, no micro-operation. It is the one
exception the block reports, and it saves no state and transfers no control (rule R254). -/
def State.commandError (s : State) (e : CommandError) : State :=
  (s.setResult (errorWord e)).emit (.cmdEnd (errorWord e))

/-- What a step or a meaning answers. -/
abbrev Answer := Host.Outcome State Fault Refusal

/-! The checks before a command runs. -/

/-- "if REFUSED or MF != None: no step" (rules R57, R58, R92), and no step under a parameter set that
rule R12 refuses. -/
def State.gate (s : State) (k : Answer) : Answer :=
  if s.refused then .refused .hostRefused
  else match s.mf with
    | some m => .fault (.halted m)
    | none => if paramsOk s.params then k else .refused .parameterSet

/-- "if needs_delay(d.opc) and DELAY_SET = 0: fault MF_UNCONFIGURED" (rules R97, R245). -/
def State.needDelay (s : State) (k : Answer) : Answer :=
  if s.delaySet then k else .next (s.raise .unconfigured)

/-- "if d.opc = IS_PRESENT and ADDR_SET = 0: fault MF_UNCONFIGURED" (rules R97, R245). -/
def State.needAddr (s : State) (k : Answer) : Answer :=
  if s.addrSet then k else .next (s.raise .unconfigured)

/-- ECODE 3 for an absent pin (rules R96, R243). -/
def State.needPin (s : State) (p : Pin) (k : Answer) : Answer :=
  if s.params.present p then k else .next (s.commandError .absentPin)

end Sys2Proof.Machine
end

