-- ==== Sys2Proof/Machine/PinController.lean ====
section
/-! DEFINITION. The pin commands (rules R124 to R127): no configuration register, no delay (rule R128). -/

namespace Sys2Proof.Machine

/-- SET_DIR (rule R124). -/
def execSetDir (p : Pin) (output : Bool) (s : State) : Answer :=
  s.gate (s.needPin p (.next ((wDir p output s).finish Reply.nothing)))

/-- SET_LEVEL (rule R125). -/
def execSetLevel (p : Pin) (high : Bool) (s : State) : Answer :=
  s.gate (s.needPin p (.next ((wOut p high s).finish Reply.nothing)))

/-- GET_LEVEL (rule R126). -/
def execGetLevel (p : Pin) (s : State) : Answer :=
  s.gate (s.needPin p (.next ((sample p s).2.finish (Reply.ofFlag (sample p s).1))))

/-- PULSE (rule R127); of an absent pin it only ends (rule R243). -/
def execPulse (p : Pin) (s : State) : Answer :=
  s.gate (.next ((pulseSeq p s).finish Reply.nothing))

end Sys2Proof.Machine
end

