-- ==== Sys2Proof/Machine/SignalLayer.lean ====
section
/-! DEFINITION. The signal layer: its three procedures (rules R140 to R142) and its three commands (rules
R144 to R146). -/

namespace Sys2Proof.Machine

/-- drive_scl(b) (rule R140): the clock delay if it is not 0, then the level. -/
def driveSclSeq (b : Bool) (s : State) : State :=
  wOut .scl b (if s.cfgDelay = 0 then s else delay s.cfgDelay.toNat s)

/-- drive_sda(b) (rule R141): direction change first, then level. -/
def driveSdaSeq (b : Bool) (s : State) : State := wOut .sda b (wDir .sda (!b) s)

/-- read_sda() (rule R142). -/
def readSdaSeq (s : State) : Bool × State := sample .sda s

/-- DRIVE_SDA (rule R144). -/
def execDriveSda (b : Bool) (s : State) : Answer :=
  s.gate (.next ((driveSdaSeq b s).finish Reply.nothing))

/-- READ_SDA (rule R145). -/
def execReadSda (s : State) : Answer :=
  s.gate (.next ((readSdaSeq s).2.finish (Reply.ofFlag (readSdaSeq s).1)))

/-- DRIVE_SCL (rule R146). -/
def execDriveScl (b : Bool) (s : State) : Answer :=
  s.gate (s.needDelay (.next ((driveSclSeq b s).finish Reply.nothing)))

end Sys2Proof.Machine
end

