-- ==== Sys2Proof/Machine/ProtocolEngine.lean ====
section
/-! DEFINITION. The protocol engine: its shared sequences and its six commands (rules R160 to R166). -/

namespace Sys2Proof.Machine

/-- INIT's part for an optional pin: high, then an output, if present (rule R161). -/
def initPin (p : Pin) (s : State) : State :=
  if s.params.present p then wDir p true (wOut p true s) else s

/-- INIT's sequence (rule R161). -/
def initSeq (s : State) : State :=
  initPin .trigger (initPin .debug (driveSclSeq true (wDir .scl true (driveSdaSeq true s))))

/-- stop_seq() (rule R163). -/
def stopSeq (s : State) : State := driveSdaSeq true (driveSclSeq true (driveSdaSeq false s))

/-- The body of the loop of write_byte_seq: one data bit and its clock pulse (rule R164). -/
def writeBit (b : Bool) (s : State) : State := driveSclSeq false (driveSclSeq true (driveSdaSeq b s))

/-- The loop of write_byte_seq over the given bit indices (rules R19, R164). -/
def writeBits (d : Byte) : List Nat → State → State
  | [], s => s
  | i :: is, s => writeBits d is (writeBit (bitOf d i) s)

/-- write_byte_seq(d) up to the acknowledgment sample: SDA released, SCL high (rule R164). -/
def writeByteHead (d : Byte) (s : State) : State :=
  driveSclSeq true (driveSdaSeq true (writeBits d msbFirst (driveSclSeq false s)))

/-- write_byte_seq(d): the acknowledgment and the state (rule R164). -/
def writeByteSeq (d : Byte) (s : State) : Bool × State :=
  let r := readSdaSeq (writeByteHead d s)
  (ackOf r.1, driveSclSeq false r.2)

/-- START's sequence (rule R162): trigger pulse, settle delay, START condition, address byte. -/
def startSeq (a : Byte) (s : State) : Bool × State :=
  writeByteSeq a
    (driveSdaSeq false (driveSclSeq true (delay s.params.startSettleUs (pulseSeq .trigger s))))

/-- The loop of READ_BYTE over the given bit indices, with the byte assembled so far (rule R165). -/
def readBits : List Nat → Byte → State → Byte × State
  | [], r, s => (r, s)
  | i :: is, r, s =>
    let q := readSdaSeq (driveSclSeq true s)
    readBits is (setBitIf r i q.1) (driveSclSeq false q.2)

/-- READ_BYTE's sequence (rule R165): the byte, the master's acknowledgment, then STOP or release. -/
def readByteSeq (last : Bool) (s : State) : Byte × State :=
  let r := readBits msbFirst 0 s
  let t := driveSclSeq false (driveSclSeq true (driveSdaSeq last r.2))
  (r.1, if last then stopSeq t else driveSdaSeq true t)

/-- ADDR of CFG_ADDR (rule R36). -/
def State.addrByte (s : State) : Byte := s.cfgAddr.extractLsb' 0 8

/-- IS_PRESENT's sequence (rule R166): the bodies of START and STOP. -/
def isPresentSeq (s : State) : Bool × State :=
  let r := startSeq s.addrByte s
  (r.1, stopSeq r.2)

/-- INIT (rule R161). -/
def execInit (s : State) : Answer :=
  s.gate (s.needDelay (.next ((initSeq s).finish Reply.nothing)))

/-- START (rule R162). -/
def execStart (a : Byte) (s : State) : Answer :=
  s.gate (s.needDelay (.next ((startSeq a s).2.finish (Reply.ofFlag (startSeq a s).1))))

/-- STOP (rule R163). -/
def execStop (s : State) : Answer :=
  s.gate (s.needDelay (.next ((stopSeq s).finish Reply.nothing)))

/-- WRITE_BYTE (rule R164). -/
def execWriteByte (d : Byte) (s : State) : Answer :=
  s.gate (s.needDelay (.next ((writeByteSeq d s).2.finish (Reply.ofFlag (writeByteSeq d s).1))))

/-- READ_BYTE (rule R165). -/
def execReadByte (last : Bool) (s : State) : Answer :=
  s.gate (s.needDelay (.next ((readByteSeq last s).2.finish (Reply.ofByte (readByteSeq last s).1))))

/-- IS_PRESENT (rule R166). -/
def execIsPresent (s : State) : Answer :=
  s.gate (s.needDelay (s.needAddr
    (.next ((isPresentSeq s).2.finish (Reply.ofFlag (isPresentSeq s).1)))))

end Sys2Proof.Machine
end

