-- ==== Sys2Proof/Machine/Dispatch.lean ====
section
/-! DEFINITION. The meaning of every command: one arm per constructor of Instr, in the table's order. -/

namespace Sys2Proof.Machine

def exec (i : Instr) (s : State) : Host.Outcome State Fault Refusal :=
  match i with
  | .init => Sys2Proof.Machine.execInit s
  | .start a => Sys2Proof.Machine.execStart a s
  | .stop => Sys2Proof.Machine.execStop s
  | .writeByte d => Sys2Proof.Machine.execWriteByte d s
  | .readByte last => Sys2Proof.Machine.execReadByte last s
  | .isPresent => Sys2Proof.Machine.execIsPresent s
  | .driveSda b => Sys2Proof.Machine.execDriveSda b s
  | .readSda => Sys2Proof.Machine.execReadSda s
  | .driveScl b => Sys2Proof.Machine.execDriveScl b s
  | .setDir p v => Sys2Proof.Machine.execSetDir p v s
  | .setLevel p v => Sys2Proof.Machine.execSetLevel p v s
  | .getLevel p => Sys2Proof.Machine.execGetLevel p s
  | .pulse p => Sys2Proof.Machine.execPulse p s

end Sys2Proof.Machine
end

