-- ==== Sys2Proof/Machine/HostPort.lean ====
section
/-! DEFINITION. The host register map and its accesses (rules R90 to R93), and the run of a command word
(rule R97). -/

namespace Sys2Proof.Machine

/-- RunCommand(w) (rule R97): CmdBegin, Decode, then a command error or the command's meaning, which
checks the configuration, performs it and ends it. -/
def runCommand (w : Word) (s : State) : Answer :=
  s.gate <|
    let t := s.emit (.cmdBegin w)
    match decode s.params w with
    | .ok i => exec i t
    | .error e => .next (t.commandError e)

/-- The register map of rule R90. -/
inductive HostReg where
  | cmd | result | cfgAddr | cfgDelay | caps
  deriving DecidableEq, Repr

/-- The register an access reaches, none where the access is refused: the offset must be that of a
register, so even, and the width 16 bits (rules R80, R90, R93). -/
def hostReg (off width : Nat) : Option HostReg :=
  if width = 16 then
    match off with
    | 0x0 => some .cmd
    | 0x2 => some .result
    | 0x4 => some .cfgAddr
    | 0x6 => some .cfgDelay
    | 0x8 => some .caps
    | _ => none
  else none

/-- HostWrite(off, v) of a given width (rules R92, R93). -/
def hostWrite (off width : Nat) (v : Word) (s : State) : Answer :=
  s.gate <|
    match hostReg off width with
    | some .cmd => runCommand v s
    | some .result => .next s
    | some .cfgAddr => .next (s.setCfgAddr v)
    | some .cfgDelay => .next (s.setCfgDelay v)
    | some .caps => .next s
    | none => .next s.refuse

/-- The value a host read gave, kept for the host. -/
def State.give (s : State) (v : Word) : State := s.setHost { s.host with readData := some v }

/-- HostRead(off) of a given width (rules R39, R92, R93, R245). -/
def hostRead (off width : Nat) (s : State) : Answer :=
  s.gate <|
    match hostReg off width with
    | some .cmd => .next (s.give 0x0000)
    | some .result => .next (s.give s.result)
    | some .cfgAddr => s.needAddr (.next (s.give s.cfgAddr))
    | some .cfgDelay => s.needDelay (.next (s.give s.cfgDelay))
    | some .caps => .next (s.give (capsWord s.params))
    | none => .next s.refuse

end Sys2Proof.Machine
end

