-- ==== Sys2Proof/Machine/Memory.lean ====
section
/-! DEFINITION. Host memory (rules R71, R200): the bytes of the host software's buffers, in one canonical
form. The block itself reads and writes none of it. -/

namespace Sys2Proof.Machine

/-- What an unlisted address reads as (log entry 7). -/
def unlistedByte : Byte := 0x00

/-- The byte at an address. -/
def memByte : Memory → Nat → Byte
  | [], _ => unlistedByte
  | c :: m, a => if c.1 = a then c.2 else memByte m a

/-- A cell before the rest of the list, left out where it is what an unlisted address reads as. -/
def consCell (a : Nat) (b : Byte) (m : Memory) : Memory := if b = unlistedByte then m else (a, b) :: m

/-- Write one byte, keeping the canonical form. -/
def memSet : Memory → Nat → Byte → Memory
  | [], a, b => consCell a b []
  | c :: m, a, b =>
    if a < c.1 then consCell a b (c :: m)
    else if a = c.1 then consCell a b m
    else c :: memSet m a b

/-- Every listed address is at least `lo`, addresses rise, no cell is what an unlisted address reads as. -/
def memWfFrom : Nat → Memory → Bool
  | _, [] => true
  | lo, c :: m => decide (lo ≤ c.1) && c.2 != unlistedByte && memWfFrom (c.1 + 1) m

/-- The canonical form. -/
def Memory.wf (m : Memory) : Bool := memWfFrom 0 m

end Sys2Proof.Machine
end

