-- ==== Sys2Proof/Machine/PagedHost.lean ====
section
/-! DEFINITION. The host software as sequences of commands (rules R200 to R213, R225 to R228): DEV_SELECT,
LOAD and SAVE with their addressing phase, and FLASH_READ and FLASH_SAVE over the block iterator. One step
is one `cmd(C)`, or one turn of the iterator's loop. -/

namespace Sys2Proof.Machine

/-- DEV_SELECT(base, page) (rule R201); the sum is taken mod 256. -/
def devSelect (c : Params) (base : Byte) (page : Nat) : Byte :=
  if page ≤ c.pageSplit then base else base + c.pageHiOffset

/-- The address byte with the read bit set: dev | 0x01 (rule R207). -/
def readAddr (dev : Byte) : Byte := dev ||| 0x01

/-- Replace the host sequence in progress. -/
def State.setTask (s : State) (t : Task) : State := s.setHost { s.host with task := t }

/-- buffer[j] <- b, where the buffer lies in host memory (rules R71, R207). -/
def State.storeByte (s : State) (a : Nat) (b : Byte) : State :=
  s.setHost { s.host with mem := memSet s.host.mem a b }

/-- A host sequence returns: to the iterator, which adds to its counter and moves on (rules R222, R225),
or to the host. -/
def State.sequenceReturn (s : State) (job : Job) (n : Nat) : Option Flash → State
  | some f => s.setTask (.iterate { f with
      addr := f.addr + job.count, remaining := f.remaining - job.count
      ptr := f.ptr + job.count, counter := f.counter + n })
  | none => s.setHost { s.host with task := .idle, returned := some n }

/-- The command a phase issues (rules R203, R204, R207, R208). -/
def phaseCommand (m : Memory) (job : Job) : Phase → Instr
  | .start _ => .start job.dev
  | .pulse _ => .pulse .debug
  | .page => .writeByte job.pageByte
  | .offset => .writeByte job.offsetByte
  | .readStart => .start (readAddr job.dev)
  | .data j =>
    match job.op with
    | .load => .readByte (j + 1 == job.count)
    | .save => .writeByte (memByte m (job.buf + j))
  | .stop _ => .stop

/-- ack(r) = r[8] (rule R200). -/
def ackBit (r : Word) : Bool := r.getLsbD 8

/-- byte(r) = r[7:0] (rule R200). -/
def resultByte (r : Word) : Byte := r.extractLsb' 0 8

/-- After a PULSE DEBUG: count the attempt, and give up at a finite MAX_ATTEMPTS (rules R203, R204). -/
def afterPulse (c : Params) (attempts : Nat) : Phase :=
  if c.maxAttempts = some (attempts + 1) then .stop 0 else .start (attempts + 1)

/-- Go on to data byte j, or end the data phase: LOAD returns, SAVE issues STOP (rules R207 to R209). -/
def State.toData (s : State) (job : Job) (j : Nat) (parent : Option Flash) : State :=
  if j < job.count then s.setTask (.transfer job (.data j) parent)
  else match job.op with
    | .load => s.sequenceReturn job job.count parent
    | .save => s.setTask (.transfer job (.stop job.count) parent)

/-- What the host does with the RESULT r of a phase's command (rules R203, R204, R207, R208). Only the
acknowledgment of the START of the addressing phase is looked at. -/
def State.phaseDone (s : State) (job : Job) (parent : Option Flash) (r : Word) : Phase → State
  | .start n =>
    if ackBit r then s.setTask (.transfer job .page parent)
    else s.setTask (.transfer job (.pulse n) parent)
  | .pulse n => s.setTask (.transfer job (afterPulse s.params n) parent)
  | .page => s.setTask (.transfer job .offset parent)
  | .offset =>
    match job.op with
    | .load => s.setTask (.transfer job .readStart parent)
    | .save => s.toData job 0 parent
  | .readStart => s.toData job 0 parent
  | .data j =>
    match job.op with
    | .load => (s.storeByte (job.buf + j) (resultByte r)).toData job (j + 1) parent
    | .save => s.toData job (j + 1) parent
  | .stop n => s.sequenceReturn job n parent

/-- cmd(C) (rule R200): HostWrite(0x0, word(C)), then HostRead(0x2). A command that ends in a model fault
ends the run there: its HostRead has no step, and the sequence goes no further (rules R92, R244). -/
def hostCommand (i : Instr) (s : State) (k : Word → State → State) : Answer :=
  match hostWrite 0x0 16 (encode i) s with
  | .next t =>
    if t.mf.isSome then .next t
    else match hostRead 0x2 16 t with
      | .next u => .next (k t.result u)
      | .fault f => .fault f
      | .refused r => .refused r
  | .fault f => .fault f
  | .refused r => .refused r

/-- BASE, the host's copy of CFG_ADDR.ADDR (rule R200). -/
def baseAddr (s : State) : Byte := s.addrByte

/-- LOAD or SAVE begins: its arguments are refused by rule R202 or its first START is next (rule R203). The
host has its copy of the address byte only once CFG_ADDR is written (rule R274, log entry 10). -/
def State.beginTransfer (s : State) (op : Xfer) (page offset buf count : Nat) (parent : Option Flash) :
    State :=
  if 511 < page ∨ 255 < offset then s.refuse
  else if s.addrSet = false then s.raise .unconfigured
  else s.setTask (.transfer
    { op := op, dev := devSelect s.params (baseAddr s) page, pageByte := BitVec.ofNat 8 page
      offsetByte := BitVec.ofNat 8 offset, buf := buf, count := count } (.start 0) parent)

/-- The device is one the flash layer takes: BLOCK_SIZE at least 1 (rule R220), and, since load and save are
bound to LOAD and SAVE, BLOCK_SIZE at most 256 and TOTAL_BLOCKS at most 512 (rule R227). -/
def flashBound (c : Params) : Bool :=
  decide (1 ≤ c.blockSize) && decide (c.blockSize ≤ 256) && decide (c.totalBlocks ≤ 512)

/-- FLASH_READ or FLASH_SAVE begins: counter <- 0, then ITERATE; a device that rule R220 refuses or that the
binding of rule R227 does not take is refused (rules R220, R225, R227, log entry 20). -/
def State.beginFlash (s : State) (op : Xfer) (addr buf bytes : Nat) : State :=
  if flashBound s.params then
    s.setTask (.iterate
      { op := op, addr := addr, remaining := bytes, ptr := 0, counter := 0, buf := buf })
  else s.refuse

/-- One turn of the loop of ITERATE (rule R222): the next chunk goes to LOAD or SAVE with page = block
(rule R227), and the end or the silent abort returns the counter (rules R225, R228). -/
def State.iterateTurn (s : State) (f : Flash) : State :=
  match nextChunk s.params.blockSize s.params.totalBlocks f.addr f.remaining f.ptr with
  | some k => s.beginTransfer f.op k.block k.offset (f.buf + k.ptr) k.size (some f)
  | none => s.setHost { s.host with task := .idle, returned := some f.counter }

/-- The host's next step: a host access, or the begin of a host sequence. -/
def runHostStep (s : State) : HostStep → Answer
  | .write off width v => hostWrite off width v s
  | .read off width => hostRead off width s
  | .load page offset buf count => .next (s.beginTransfer .load page offset buf count none)
  | .save page offset buf count => .next (s.beginTransfer .save page offset buf count none)
  | .flashRead addr buf bytes => .next (s.beginFlash .load addr buf bytes)
  | .flashSave addr buf bytes => .next (s.beginFlash .save addr buf bytes)

/-- The host takes its turn: the sequence in progress goes on, else the next host step is taken, else
nothing happens: "between commands it is idle and keeps all its state" (rules R32, R262, R273). -/
def hostTurn (s : State) : Answer :=
  s.gate <|
    match s.host.task with
    | .transfer job ph parent =>
      hostCommand (phaseCommand s.host.mem job ph) s fun r t => t.phaseDone job parent r ph
    | .iterate f => .next (s.iterateTurn f)
    | .idle =>
      match s.host.queue with
      | [] => .next s
      | h :: q => runHostStep (s.setHost { s.host with queue := q }) h

end Sys2Proof.Machine
end

