-- ==== Sys2Proof/Machine/Step.lean ====
section
/-! DEFINITION. One step of the machine is one turn of the host (rules R32, R92): I2CBB fetches nothing
(rule R89), a command comes as a host write of CMD. -/

namespace Sys2Proof.Machine

/-- One step (rules R32, R92). -/
def step (s : State) : Host.Outcome State Fault Refusal := hostTurn s

/-- The state with a host write of this word to CMD as the host's very next step (log entry 6). -/
def State.withFetchWord (s : State) (nbits w : Nat) : State :=
  s.setHost { s.host with
    task := .idle
    queue := .write 0x0 16 (BitVec.ofNat 16 (w % 2 ^ nbits)) :: s.host.queue }

end Sys2Proof.Machine
end

