-- ==== Sys2Proof/Machine/Assembly.lean ====
section
/-! DEFINITION. The assembler syntax of rules R104 to R106: a command as text, text as a command, and the
host-step syntax `wr` and `rd`. -/

namespace Sys2Proof.Machine

/-- The name of a pin (rule R104). -/
def pinName : Pin → String
  | .sda => "SDA"
  | .scl => "SCL"
  | .debug => "DEBUG"
  | .trigger => "TRIGGER"

/-- A Boolean operand: 0 or 1 (rule R104). -/
def boolText (b : Bool) : String := if b then "1" else "0"

/-- A hexadecimal digit. -/
def hexDigit (n : Nat) : Char :=
  ['0', '1', '2', '3', '4', '5', '6', '7', '8', '9', 'A', 'B', 'C', 'D', 'E', 'F'].getD n '?'

/-- A byte operand, written 0xHH (rule R104). -/
def byteText (d : Byte) : String :=
  String.ofList ['0', 'x', hexDigit (d.toNat / 16), hexDigit (d.toNat % 16)]

/-- The operands of a command, as text (rule R104). -/
def operandTexts : Instr → List String
  | .init | .stop | .isPresent | .readSda => []
  | .start d | .writeByte d => [byteText d]
  | .readByte b | .driveSda b | .driveScl b => [boolText b]
  | .setDir p b | .setLevel p b => [pinName p, boolText b]
  | .getLevel p | .pulse p => [pinName p]

/-- A command as one line: the mnemonic, then its operands separated by commas (rule R104). -/
def assemblyOf (i : Instr) : String :=
  match operandTexts i with
  | [] => i.mnemonic
  | [a] => i.mnemonic ++ " " ++ a
  | a :: b :: _ => i.mnemonic ++ " " ++ a ++ ", " ++ b

/-- The value of a digit below a base. -/
def digitValue (base : Nat) (ch : Char) : Option Nat :=
  ((List.range base).find? fun n => hexDigit n == ch)

/-- The value of a list of digits, most significant first; none for no digit. -/
def digitsValue (base : Nat) (cs : List Char) : Option Nat :=
  if cs.isEmpty then none
  else cs.foldl (fun acc ch => acc.bind fun n => (digitValue base ch).map fun v => n * base + v) (some 0)

/-- A number, in hexadecimal after 0x or in decimal (rule R104). -/
def numberOf (t : String) : Option Nat :=
  match t.toList with
  | '0' :: 'x' :: cs => digitsValue 16 cs
  | cs => digitsValue 10 cs

/-- A byte operand: 0xHH with two digits, or decimal 0..255 (rule R104). -/
def byteOf (t : String) : Option Byte :=
  match t.toList with
  | ['0', 'x', h, l] => (digitsValue 16 [h, l]).map (BitVec.ofNat 8)
  | cs => (digitsValue 10 cs).bind fun n => if n ≤ 255 then some (BitVec.ofNat 8 n) else none

/-- A Boolean operand (rule R104). -/
def boolOf (t : String) : Option Bool :=
  if t = "0" then some false else if t = "1" then some true else none

/-- A pin operand (rule R104). -/
def pinOfName (t : String) : Option Pin := [Pin.sda, .scl, .debug, .trigger].find? fun p => pinName p == t

/-- A line cut into words at spaces and commas. -/
def wordsOf : List Char → List Char → List String
  | [], cur => if cur.isEmpty then [] else [String.ofList cur.reverse]
  | ch :: cs, cur =>
    if ch = ' ' ∨ ch = ',' then
      (if cur.isEmpty then wordsOf cs [] else String.ofList cur.reverse :: wordsOf cs [])
    else wordsOf cs (ch :: cur)

/-- A command from its words (rule R104), or a pseudo-instruction that stands for one command (rule
R106). -/
def commandFromWords : List String → Option Instr
  | ["INIT"] => some .init
  | ["STOP"] => some .stop
  | ["IS_PRESENT"] => some .isPresent
  | ["READ_SDA"] => some .readSda
  | ["RELEASE_SDA"] => some (.driveSda true)
  | ["PULL_SDA"] => some (.driveSda false)
  | ["READ_ACK"] => some (.readByte false)
  | ["READ_LAST"] => some (.readByte true)
  | ["START", d] => (byteOf d).map .start
  | ["START_READ", d] => (byteOf d).map fun b => .start (b ||| 0x01)
  | ["WRITE_BYTE", d] => (byteOf d).map .writeByte
  | ["READ_BYTE", b] => (boolOf b).map .readByte
  | ["DRIVE_SDA", b] => (boolOf b).map .driveSda
  | ["DRIVE_SCL", b] => (boolOf b).map .driveScl
  | ["GET_LEVEL", p] => (pinOfName p).map .getLevel
  | ["PULSE", p] => (pinOfName p).map .pulse
  | ["SET_DIR", p, b] => (pinOfName p).bind fun q => (boolOf b).map (.setDir q)
  | ["SET_LEVEL", p, b] => (pinOfName p).bind fun q => (boolOf b).map (.setLevel q)
  | _ => none

/-- The command a line names (rules R104, R106). -/
def assemble (line : String) : Option Instr := commandFromWords (wordsOf line.toList [])

/-- offset(REG) (rules R90, R105). -/
def offsetOf (t : String) : Option Nat :=
  if t = "CMD" then some 0x0
  else if t = "RESULT" then some 0x2
  else if t = "CFG_ADDR" then some 0x4
  else if t = "CFG_DELAY" then some 0x6
  else if t = "CAPS" then some 0x8
  else none

/-- The host step a line names: `wr REG, value`, `rd REG -> name`, or a command, which is a write of its
word to CMD (rule R105). -/
def hostStepOf (line : String) : Option HostStep :=
  match wordsOf line.toList [] with
  | ["wr", reg, v] =>
    (offsetOf reg).bind fun off => (numberOf v).bind fun n =>
      if n < 2 ^ 16 then some (.write off 16 (BitVec.ofNat 16 n)) else none
  | ["rd", reg, "->", _] => (offsetOf reg).map fun off => .read off 16
  | ws => (commandFromWords ws).map fun i => .write 0x0 16 (encode i)

end Sys2Proof.Machine
end

