-- ==== Sys2Proof/Safety.lean ====
section
/-! DEFINITION. The terms claims are stated in: when the block takes a command, what an environment must not
do for a command to complete (rule R247), the events each command puts in the trace (rules R140 to R166,
written from the rules' own lists and not from the meanings), the bus view's conditions (rules R56, R170,
R171), and the invariant every step keeps. -/

namespace Sys2Proof.Machine

/-- The block takes a host access: no refusal and no model fault before (rules R57, R58), a parameter set
rule R12 admits, and a register file of the shape of rule R41. -/
abbrev State.Ready (s : State) : Prop :=
  s.refused = false ∧ s.mf = none ∧ paramsOk s.params = true ∧ gpioOk s.params s.gpio = true

/-- The block takes a host access, whatever GPIO holds: no refusal and no model fault before, and a
parameter set rule R12 admits (rules R57, R58, R92). -/
abbrev State.Takes (s : State) : Prop :=
  s.refused = false ∧ s.mf = none ∧ paramsOk s.params = true

/-- The state after these events: they are appended, and GPIO holds what their writes left (rule R72).
Nothing else changes. -/
def State.did (s : State) (es : List Event) : State :=
  { s with gpio := replay s.params s.gpio es, trace := s.trace ++ es }

/-- The state after a command with these events and this reply (rules R97, R98). -/
def State.completed (s : State) (es : List Event) (r : Reply) : State :=
  { s with
    gpio := replay s.params s.gpio es
    trace := s.trace ++ es ++ [.cmdEnd (resultWord r)]
    result := resultWord r }

/-- The state after a command that ended in a command error: RESULT and CmdEnd alone (rule R241). -/
def State.errored (s : State) (r : Word) : State :=
  { s with trace := s.trace ++ [.cmdEnd r], result := r }

/-- The state with MF set and nothing else changed (rule R244). -/
def State.faultedWith (s : State) (m : ModelFault) : State := { s with mf := some m }

/-- The state after a command that ended in a model fault at the last of these events (rule R244). -/
def State.stoppedBy (s : State) (es : List Event) (m : ModelFault) : State :=
  { s with gpio := replay s.params s.gpio es, trace := s.trace ++ es, mf := some m }

/-- After these events SDA is driven high and the environment pulls it low (rule R53). -/
abbrev State.ShortAfter (s : State) (es : List Event) : Prop :=
  (s.did es).driveOf .sda = .high ∧ (s.did es).pullsSda = true

/-- A write of one of SDA's two bits, the events at which the contention check stands (rules R120, R121). -/
def isSdaWrite : Event → Bool
  | .wDir .sda _ | .wOut .sda _ => true
  | .wDir _ _ | .wOut _ _ | .sample _ _ | .delay _ | .cmdBegin _ | .cmdEnd _ => false

/-- These events end at a driven-high window that the environment pulls at: the last is a write of SDA that
left it driven high, and the environment pulls SDA low there (rules R143, R246). -/
def State.ShortAt (s : State) (h : List Event) : Prop :=
  h.getLast?.any isSdaWrite = true ∧ s.ShortAfter h

/-- "the environment does not pull SDA low at a driven-high window" (rule R247), of the windows of these
events from the state s, and of no others. -/
def State.QuietAlong (s : State) (es : List Event) : Prop := ∀ h, h <+: es → ¬ s.ShortAt h

/-- The first driven-high window of these events that the environment pulls at: "the first micro-operation in
program order at which it applies" (rule R249). -/
def State.FirstShort (s : State) (es h : List Event) : Prop :=
  h <+: es ∧ s.ShortAt h ∧ ∀ h', h' <+: h → s.ShortAt h' → h' = h

/-- An event of a micro-operation (rule R17), so neither CmdBegin nor CmdEnd. -/
def isMicro : Event → Bool
  | .wDir _ _ | .wOut _ _ | .sample _ _ | .delay _ => true
  | .cmdBegin _ | .cmdEnd _ => false

/-! The events of the procedures and commands, with d the clock delay. -/

/-- drive_scl(b) (rule R140). -/
def sclEvents (d : Word) (b : Bool) : List Event :=
  (if d = 0 then [] else [.delay d.toNat]) ++ [.wOut .scl b]

/-- drive_sda(b) (rule R141). -/
def sdaEvents (b : Bool) : List Event := [.wDir .sda (!b), .wOut .sda b]

/-- pulse(p) (rule R123). -/
def pulseEvents (c : Params) (p : Pin) : List Event :=
  if c.present p then [.wOut p false, .wOut p true] else []

/-- INIT's part for an optional pin (rule R161). -/
def initPinEvents (c : Params) (p : Pin) : List Event :=
  if c.present p then [.wOut p true, .wDir p true] else []

/-- INIT (rule R161). -/
def initEvents (c : Params) (d : Word) : List Event :=
  sdaEvents true ++ [.wDir .scl true] ++ sclEvents d true ++ initPinEvents c .debug
    ++ initPinEvents c .trigger

/-- stop_seq (rule R163). -/
def stopEvents (d : Word) : List Event := sdaEvents false ++ sclEvents d true ++ sdaEvents true

/-- One data bit of write_byte_seq (rule R164). -/
def writeBitEvents (d : Word) (b : Bool) : List Event :=
  sdaEvents b ++ sclEvents d true ++ sclEvents d false

/-- write_byte_seq up to its acknowledgment sample (rule R164). -/
def writeHeadEvents (d : Word) (x : Byte) : List Event :=
  sclEvents d false ++ [7, 6, 5, 4, 3, 2, 1, 0].flatMap (fun i => writeBitEvents d (x.getLsbD i))
    ++ sdaEvents true ++ sclEvents d true

/-- write_byte_seq with the sample it took (rule R164). -/
def writeByteEvents (d : Word) (x : Byte) (sampled : Bool) : List Event :=
  writeHeadEvents d x ++ [.sample .sda sampled] ++ sclEvents d false

/-- START before its byte: the trigger pulse, the settle delay, the START condition (rule R162). -/
def startHeadEvents (c : Params) (d : Word) : List Event :=
  pulseEvents c .trigger ++ [.delay c.startSettleUs] ++ sclEvents d true ++ sdaEvents false

/-- START with the sample it took (rule R162). -/
def startEvents (c : Params) (d : Word) (a : Byte) (sampled : Bool) : List Event :=
  startHeadEvents c d ++ writeByteEvents d a sampled

/-- One data bit of READ_BYTE with the sample it took (rule R165). -/
def readBitEvents (d : Word) (b : Bool) : List Event :=
  sclEvents d true ++ [.sample .sda b] ++ sclEvents d false

/-- READ_BYTE's loop before the sample that follows these (rule R165). -/
def beforeSample (d : Word) (bs : List Bool) : List Event :=
  bs.flatMap (readBitEvents d) ++ sclEvents d true

/-- READ_BYTE with its eight samples in time order (rule R165). -/
def readByteEvents (d : Word) (bs : List Bool) (last : Bool) : List Event :=
  bs.flatMap (readBitEvents d) ++ sdaEvents last ++ sclEvents d true ++ sclEvents d false
    ++ (if last then stopEvents d else sdaEvents true)

/-- IS_PRESENT with the sample it took (rule R166). -/
def isPresentEvents (c : Params) (d : Word) (a : Byte) (sampled : Bool) : List Event :=
  startEvents c d a sampled ++ stopEvents d

/-- The byte of eight samples in time order, "0b b1 b2 b3 b4 b5 b6 b7 b8" (rule R173). -/
def byteOfSamples (bs : List Bool) : Byte := BitVec.ofNat 8 (bs.foldl (fun n b => 2 * n + b.toNat) 0)

/-- The first n samples of a READ_BYTE in state s, in time order: each is the level of SDA after what came
before it (rule R165). -/
def State.readSamples (s : State) : Nat → List Bool
  | 0 => []
  | n + 1 => s.readSamples n ++ [(s.did (beforeSample s.cfgDelay (s.readSamples n))).level .sda]

/-- ADDR of the state's CFG_ADDR, bits 7:0 (rule R36). -/
abbrev State.configuredAddr (s : State) : Byte := s.cfgAddr.extractLsb' 0 8

/-! The bus view (rule R56). -/

/-- The pair (msda, mscl) of a state (rules R47, R56). -/
def State.lines (s : State) : Bool × Bool := (msda s.params s.gpio, mscl s.params s.gpio)

/-- The master STARTs of a bus view that follows a first pair: mscl stays 1 and msda goes 1 to 0. -/
def startsIn : Bool × Bool → List (Bool × Bool) → Nat
  | _, [] => 0
  | a, b :: bs => (if a.2 && b.2 && a.1 && !b.1 then 1 else 0) + startsIn b bs

/-- The master STOPs: mscl stays 1 and msda goes 0 to 1. -/
def stopsIn : Bool × Bool → List (Bool × Bool) → Nat
  | _, [] => 0
  | a, b :: bs => (if a.2 && b.2 && !a.1 && b.1 then 1 else 0) + stopsIn b bs

/-- msda at each rising edge of SCL: the bits the master writes (rules R56, R171). -/
def bitsAtRises : Bool × Bool → List (Bool × Bool) → List Bool
  | _, [] => []
  | a, b :: bs => (if !a.2 && b.2 then [b.1] else []) ++ bitsAtRises b bs

/-- The bus view of these events from the state s. -/
def State.viewOf (s : State) (es : List Event) : List (Bool × Bool) := busView s.params s.gpio es

/-- The sum of the Delay events: the least time the events take, in microseconds (rules R175, R257,
R294). -/
def delayTotal : List Event → Nat
  | [] => 0
  | .delay n :: es => n + delayTotal es
  | .cmdBegin _ :: es => delayTotal es
  | .wDir _ _ :: es => delayTotal es
  | .wOut _ _ :: es => delayTotal es
  | .sample _ _ :: es => delayTotal es
  | .cmdEnd _ :: es => delayTotal es

/-- SDA released with out = 1 and SCL high as an output: "idle" (rule R168). -/
abbrev State.BusIdle (s : State) : Prop :=
  s.dirBit .sda = false ∧ s.outBit .sda = true ∧ s.dirBit .scl = true ∧ s.outBit .scl = true

/-- SDA released with out = 1 and SCL low: "held" (rule R168). -/
abbrev State.BusHeld (s : State) : Prop :=
  s.dirBit .sda = false ∧ s.outBit .sda = true ∧ s.dirBit .scl = true ∧ s.outBit .scl = false

/-- The state when the host's first queued step is taken off its queue. -/
def State.dequeued (s : State) (q : List HostStep) : State :=
  { s with host := { s.host with queue := q } }

/-- The state when a host read gave a value. -/
def State.gave (s : State) (v : Word) : State := { s with host := { s.host with readData := some v } }

/-- In this state a transfer has returned n: to the host, or to the iterator, whose loop variables have moved
past the chunk and whose counter has grown by n (rules R207, R208, R222, R225). -/
def State.HasReturned (t : State) (job : Job) (n : Nat) : Option Flash → Prop
  | none => t.host.task = .idle ∧ t.host.returned = some n
  | some f => t.host.task = .iterate { f with
      addr := f.addr + job.count, remaining := f.remaining - job.count
      ptr := f.ptr + job.count, counter := f.counter + n }

/-- Two states with the same bits of every pin but those named. -/
abbrev State.SamePins (s t : State) (dirBut outBut : List Pin) : Prop :=
  ∀ q : Pin, s.params.present q = true →
    (q ∉ dirBut → t.dirBit q = s.dirBit q) ∧ (q ∉ outBut → t.outBit q = s.outBit q)

/-! The invariant. -/

/-- The RESULT value of the last CmdEnd of a trace, and `r` where there is none (rules R55, R98). -/
def lastResult : Word → Trace → Word
  | r, [] => r
  | _, .cmdEnd v :: es => lastResult v es
  | r, .cmdBegin _ :: es => lastResult r es
  | r, .wDir _ _ :: es => lastResult r es
  | r, .wOut _ _ :: es => lastResult r es
  | r, .sample _ _ :: es => lastResult r es
  | r, .delay _ :: es => lastResult r es

/-- RESULT as rule R35 lays it out: bits 11:9 are 0; with ERR = 0, ECODE is 0; with ERR = 1, FLAG and DATA
are 0 and ECODE is 1, 2 or 3 (rule R241). -/
def resultOk (r : Word) : Bool :=
  r.extractLsb' 9 3 == 0 &&
    (if r.getLsbD 15 then
      r.extractLsb' 0 9 == 0 && r.extractLsb' 12 3 != 0 && decide ((r.extractLsb' 12 3).toNat ≤ 3)
    else r.extractLsb' 12 3 == 0)

/-- What every step keeps: GPIO is what the writes of the trace made of its reset value (rule R72), RESULT
is that of the last CmdEnd (rules R55, R98) in the layout of rule R35, the reserved bits of CFG_ADDR read 0
(rule R36), and host memory is in its canonical form. -/
def State.Inv (s : State) : Prop :=
  s.gpio = replay s.params (resetGpio s.params) s.trace ∧
    s.result = lastResult 0 s.trace ∧ resultOk s.result = true ∧
    s.cfgAddr.extractLsb' 8 8 = 0 ∧ Memory.wf s.host.mem = true

/-- "A claim about a host with a HOST_ADDR_WIDTH-bit address takes the premise addr + bytes <
2^HOST_ADDR_WIDTH" (rule R221). -/
def addrFits (c : Params) (addr bytes : Nat) : Prop := addr + bytes < 2 ^ c.hostAddrWidth

end Sys2Proof.Machine
end

