-- ==== Sys2Proof/Certificates/Slice0/Obligations.lean ====
section
/-! DEFINITION. The statements for the provers, each with the rule of spec/ it formalises. Every one is over
all states, all parameter sets and all environments that meet its hypotheses. -/

open Sys2Proof Sys2Proof.Machine

/-! Encoding (30_encoding.md). -/

/-- Every command the parameters admit is read back from its word, with every operand (rules R94 to R103). -/
def Obligations.DecodeOfEncode : Prop :=
  ∀ (c : Params) (i : Instr), i.wellFormed c = true → decode c (encode i) = .ok i

/-- A word that decodes is the word of the command it decodes to, so no word has two commands and no
command two words (rules R95, R103). -/
def Obligations.EncodeOfDecode : Prop :=
  ∀ (c : Params) (w : Word) (i : Instr), decode c w = .ok i → encode i = w ∧ i.wellFormed c = true

/-- Rule R95: the rows of the opcode table have distinct opcodes, and a word encodes the command of a row
exactly when (w & mask) = match. -/
def Obligations.WordEncodesByMaskAndMatch : Prop :=
  (opTable.map fun r => opcOf r.mat).Nodup ∧
    ∀ (row : OpRow) (w : Word), row ∈ opTable →
      (w &&& row.mask = row.mat ↔ ∃ i : Instr, i.mnemonic = row.mnemonic ∧ encode i = w)

/-- Rule R96: Decode maps every word to one outcome, in this order: the illegal opcodes, the unused bits,
the absent pins, and else the command of the word; and the three errors have the codes 1, 2 and 3. -/
def Obligations.DecodeOutcomes : Prop :=
  (CommandError.illegalOpcode.code = 1 ∧ CommandError.nonzeroUnused.code = 2 ∧
    CommandError.absentPin.code = 3) ∧
  ∀ (c : Params) (w : Word),
    (opcOf w ∈ [0x0, 0x7, 0xB] → decode c w = .error .illegalOpcode) ∧
    (opcOf w ∉ [0x0, 0x7, 0xB] → ∃ row ∈ opTable, opcOf row.mat = opcOf w) ∧
    ∀ row ∈ opTable, opcOf row.mat = opcOf w →
      (w &&& row.mask ≠ row.mat → decode c w = .error .nonzeroUnused) ∧
      (w &&& row.mask = row.mat →
        (opcOf w ∈ [0xC, 0xD, 0xE] ∧ c.present (pinOf (pinField w)) = false →
          decode c w = .error .absentPin) ∧
        (¬ (opcOf w ∈ [0xC, 0xD, 0xE] ∧ c.present (pinOf (pinField w)) = false) →
          ∃ i, decode c w = .ok i ∧ i.mnemonic = row.mnemonic ∧ encode i = w))

/-- A word with RSV = 1 is no command, in every opcode (rule R102). -/
def Obligations.ReservedBitIsNoCommand : Prop :=
  ∀ (c : Params) (w : Word) (i : Instr), w.getLsbD 9 = true → decode c w ≠ .ok i

/-- The example words of rule R104 decode to the commands it names, under every parameter set where the pin
each names is present. -/
def Obligations.ExampleWordsDecode : Prop :=
  ∀ c : Params,
    decode c 0x1000 = .ok .init ∧ decode c 0x20A0 = .ok (.start 0xA0) ∧ decode c 0x3000 = .ok .stop ∧
    decode c 0x40A5 = .ok (.writeByte 0xA5) ∧ decode c 0x5100 = .ok (.readByte true) ∧
    decode c 0x6000 = .ok .isPresent ∧ decode c 0x8000 = .ok (.driveSda false) ∧
    decode c 0x9000 = .ok .readSda ∧ decode c 0xA100 = .ok (.driveScl true) ∧
    (c.present .debug = true → decode c 0xC900 = .ok (.setDir .debug true)) ∧
    (c.present .trigger = true → decode c 0xDC00 = .ok (.setLevel .trigger false)) ∧
    decode c 0xE400 = .ok (.getLevel .scl) ∧ decode c 0xF800 = .ok (.pulse .debug)

/-- A command written in the syntax of rule R104 is read back as the same command. -/
def Obligations.AssemblyReadsBack : Prop := ∀ i : Instr, assemble (assemblyOf i) = some i

/-! The step and the host registers (10_state.md, 30_encoding.md, 60_exceptions.md). -/

/-- A host write of a command word is the next step's run of the decoded command: the step takes the access
off the host's queue, appends CmdBegin(w), and is exec of the command (rules R92, R97). The queue is the
model's own (log entry 6). -/
def Obligations.StepRunsDecodedCommand : Prop :=
  ∀ (s : State) (w : Word) (q : List HostStep) (i : Instr), s.Takes → s.host.task = .idle →
    s.host.queue = .write 0x0 16 w :: q → decode s.params w = .ok i →
      step s = exec i { s.dequeued q with trace := s.trace ++ [.cmdBegin w] }

/-- The other steps with no host sequence in progress: with nothing queued a step changes nothing ("between
commands it is idle and keeps all its state", rule R262), and a queued host access is the step's HostWrite or
HostRead (rule R92). The queue is the model's own (log entry 6). -/
def Obligations.StepTakesHostAccesses : Prop :=
  ∀ s : State, s.Takes → s.host.task = .idle →
    (s.host.queue = [] → step s = .next s) ∧
    (∀ off width v q, s.host.queue = .write off width v :: q →
      step s = hostWrite off width v (s.dequeued q)) ∧
    (∀ off width q, s.host.queue = .read off width :: q → step s = hostRead off width (s.dequeued q))

/-- "a state with MF != None is never final and no command runs in it" (rule R57), "a state with REFUSED = 1
has no step" (rule R58), and a parameter set that breaks rule R12 is refused. That a step there answers a
fault or a refusal by name is the model's form of "no step" (log entries 11, 12). -/
def Obligations.NoStepAfterMark : Prop :=
  ∀ (s : State) (i : Instr),
    (s.refused = true → step s = .refused .hostRefused ∧ exec i s = .refused .hostRefused) ∧
    (∀ m, s.refused = false → s.mf = some m → step s = .fault (.halted m) ∧ exec i s = .fault (.halted m)) ∧
    (s.refused = false → s.mf = none → paramsOk s.params = false →
      step s = .refused .parameterSet ∧ exec i s = .refused .parameterSet)

/-- The outcomes of a host write of a command word, in every state that takes it and in every environment:
it answers a state with CmdBegin(w) appended, and either the command ended, with its RESULT in CmdEnd and ERR
set exactly where the word does not decode, or a model fault stopped a command that decodes, with RESULT as
before and no CmdEnd (rules R240, R241, R244). -/
def Obligations.CommandOutcomes : Prop :=
  ∀ (s : State) (w : Word), s.Takes →
    ∃ t es, runCommand w s = .next t ∧ t.refused = false ∧ t.trace = s.trace ++ .cmdBegin w :: es ∧
      ((t.mf = none ∧ es.getLast? = some (.cmdEnd t.result) ∧
          (t.result.getLsbD 15 = true ↔ ∃ e, decode s.params w = .error e)) ∨
        (t.mf ≠ none ∧ t.result = s.result ∧ (∀ e ∈ es, isMicro e = true) ∧
          ∃ i, decode s.params w = .ok i))

/-- Rule R242: the state after a CMD write of a word that does not decode differs from the state before only in
RESULT, which is 0x9000, 0xA000 or 0xB000 by the error, and in the two events appended to TRACE; and a
well-formed command never sets ERR. -/
def Obligations.CommandErrorIsPrecise : Prop :=
  (∀ (s : State) (w : Word) (e : CommandError), s.Takes → decode s.params w = .error e →
    hostWrite 0x0 16 w s = .next { s with
      result := match e with | .illegalOpcode => 0x9000 | .nonzeroUnused => 0xA000 | .absentPin => 0xB000
      trace := s.trace ++ [.cmdBegin w, .cmdEnd (match e with
        | .illegalOpcode => 0x9000 | .nonzeroUnused => 0xA000 | .absentPin => 0xB000)] }) ∧
  ∀ (s t : State) (i : Instr), i.wellFormed s.params = true → exec i s = .next t → t.mf = none →
    t.result.getLsbD 15 = false

/-- HostWrite of rule R92, in every state that takes accesses: CMD runs the word, CFG_ADDR and CFG_DELAY
are stored and their flags set, RESULT and CAPS ignore the write. -/
def Obligations.HostWriteMap : Prop :=
  ∀ (s : State) (v : Word), s.Takes →
    hostWrite 0x0 16 v s = runCommand v s ∧
    hostWrite 0x2 16 v s = .next s ∧
    hostWrite 0x4 16 v s = .next { s with cfgAddr := v &&& 0x00FF, addrSet := true } ∧
    hostWrite 0x6 16 v s = .next { s with cfgDelay := v, delaySet := true } ∧
    hostWrite 0x8 16 v s = .next s

/-- HostRead of rule R92, in every state that takes accesses: the value of each register, and the fault
MF_UNCONFIGURED for a configuration register never written. -/
def Obligations.HostReadMap : Prop :=
  ∀ s : State, s.Takes →
    hostRead 0x0 16 s = .next (s.gave 0x0000) ∧
    hostRead 0x2 16 s = .next (s.gave s.result) ∧
    (s.addrSet = true → hostRead 0x4 16 s = .next (s.gave s.cfgAddr)) ∧
    (s.addrSet = false → hostRead 0x4 16 s = .next (s.faultedWith .unconfigured)) ∧
    (s.delaySet = true → hostRead 0x6 16 s = .next (s.gave s.cfgDelay)) ∧
    (s.delaySet = false → hostRead 0x6 16 s = .next (s.faultedWith .unconfigured)) ∧
    ∃ v : Word, hostRead 0x8 16 s = .next (s.gave v) ∧
      ∀ n, v.getLsbD n =
        (n == 0 && s.params.present .debug || n == 1 && s.params.present .trigger)

/-- Rule R93: an access whose offset is no register's, whose width is not 16 bits, or whose address is odd
sets REFUSED and does nothing else, and there is no further step. -/
def Obligations.BadHostAccessRefused : Prop :=
  ∀ (s : State) (off width : Nat) (v : Word), s.Takes →
    (off ∉ [0x0, 0x2, 0x4, 0x6, 0x8] ∨ width ≠ 16 ∨ off % 2 = 1) →
      hostWrite off width v s = .next { s with refused := true } ∧
      hostRead off width s = .next { s with refused := true } ∧
      step { s with refused := true } = .refused .hostRefused

/-- Rule R245: (a) a command that needs CFG_DELAY with DELAY_SET = 0, (b) IS_PRESENT with ADDR_SET = 0, and
(c) a host read of an unwritten configuration register raise MF_UNCONFIGURED; after Decode the command has
appended CmdBegin alone, the read nothing. -/
def Obligations.UnconfiguredUseFaults : Prop :=
  ∀ (s : State), s.Takes →
    (∀ i : Instr, s.delaySet = false →
      i ∈ [.init, .stop, .isPresent] ∨ (∃ a, i = .start a) ∨ (∃ d, i = .writeByte d) ∨
        (∃ l, i = .readByte l) ∨ (∃ b, i = .driveScl b) →
      runCommand (encode i) s =
        .next { s with trace := s.trace ++ [.cmdBegin (encode i)], mf := some .unconfigured }) ∧
    (s.addrSet = false → runCommand (encode .isPresent) s =
      .next { s with trace := s.trace ++ [.cmdBegin (encode .isPresent)], mf := some .unconfigured }) ∧
    (s.delaySet = false → hostRead 0x6 16 s = .next { s with mf := some .unconfigured }) ∧
    (s.addrSet = false → hostRead 0x4 16 s = .next { s with mf := some .unconfigured })

/-! Reset (rules R61, R272). -/

/-- The reset state for every parameter set, environment and host: the values rule R61 gives. The values of
CFG_ADDR and CFG_DELAY are not stated: they are unspecified (log entry 5). -/
def Obligations.ResetValues : Prop :=
  ∀ (c : Params) (e : Env) (h : HostSide), paramsOk c = true →
    let s := State.resetWith c e h
    s.result = 0x0000 ∧ s.addrSet = false ∧ s.delaySet = false ∧ s.mf = none ∧ s.refused = false ∧
      s.trace = [] ∧ gpioOk c s.gpio = true ∧
      ∀ k, k < c.nports → memRead s.gpio .dir k = c.resetDir.getD k 0 ∧
        memRead s.gpio .out k = c.resetOut.getD k 0

/-- The invariant holds right after reset, for every parameter set, environment and host whose memory is in
its canonical form. -/
def Obligations.ResetMeetsInvariant : Prop :=
  State.reset.Inv ∧
    ∀ (c : Params) (e : Env) (h : HostSide), Memory.wf h.mem = true → (State.resetWith c e h).Inv

/-! Invariants of every step. -/

/-- Every step keeps the invariant: GPIO is what the trace's writes made of its reset value, RESULT is that
of the last CmdEnd in the layout of rule R35, CFG_ADDR's reserved bits read 0, host memory stays canonical
(rules R35, R36, R55, R72, R98). -/
def Obligations.StepKeepsInvariant : Prop :=
  ∀ s t : State, s.Inv → step s = .next t → t.Inv

/-- Every step keeps the shape of the register file: NPORTS ports, each register W bits (rule R41). -/
def Obligations.StepKeepsRegisterShape : Prop :=
  ∀ s t : State, gpioOk s.params s.gpio = true → step s = .next t → gpioOk t.params t.gpio = true

/-- No step changes a bit of DIR or OUT that belongs to no present pin (rule R45). -/
def Obligations.StepKeepsUnboundBits : Prop :=
  ∀ (s t : State) (r : Reg) (k j : Nat), gpioOk s.params s.gpio = true → step s = .next t →
    (∀ p : Pin, s.params.present p = true → ¬ (s.params.port p = k ∧ (s.params.mask p).testBit j = true)) →
      (memRead t.gpio r k).testBit j = (memRead s.gpio r k).testBit j

/-- "TRACE is append-only; no event is ever removed" (rule R55), over every step; the parameters are fixed
for the life of the block (rule R30), and the environment is the oracle's own (rule R52). -/
def Obligations.StepOnlyAppendsToTrace : Prop :=
  ∀ s t : State, step s = .next t →
    (∃ es, t.trace = s.trace ++ es) ∧ t.params = s.params ∧ t.env = s.env

/-- "Nothing clears them but reset" (rule R39), and no step but a host write of CFG_ADDR or CFG_DELAY, taken from
the head of the queue with no host sequence in progress, changes these registers (rules R36, R37). The queue is
the model's own (log entry 6). -/
def Obligations.WrittenFlagsStaySet : Prop :=
  ∀ s t : State, step s = .next t →
    (s.addrSet = true → t.addrSet = true) ∧ (s.delaySet = true → t.delaySet = true) ∧
    (¬ (s.host.task = .idle ∧ ∃ v, s.host.queue.head? = some (.write 0x4 16 v)) →
      t.cfgAddr = s.cfgAddr ∧ t.addrSet = s.addrSet) ∧
    (¬ (s.host.task = .idle ∧ ∃ v, s.host.queue.head? = some (.write 0x6 16 v)) →
      t.cfgDelay = s.cfgDelay ∧ t.delaySet = s.delaySet)

/-- The frame of all 13 commands: a command changes nothing but GPIO, TRACE, RESULT and MF; GPIO is what the
writes among its events made of it, and RESULT is that of its CmdEnd unless a model fault ended it (rules
R30, R36, R37, R98, R244). -/
def Obligations.CommandFrame : Prop :=
  ∀ (s t : State) (i : Instr), exec i s = .next t →
    t.params = s.params ∧ t.cfgAddr = s.cfgAddr ∧ t.cfgDelay = s.cfgDelay ∧ t.addrSet = s.addrSet ∧
    t.delaySet = s.delaySet ∧ t.refused = s.refused ∧ t.env = s.env ∧ t.host = s.host ∧
    ∃ es, (∀ e ∈ es, isMicro e = true) ∧ t.gpio = replay s.params s.gpio es ∧
      ((t.mf ≠ none ∧ t.result = s.result ∧ t.trace = s.trace ++ es) ∨
        (t.mf = none ∧ t.trace = s.trace ++ es ++ [.cmdEnd t.result]))

/-! The micro-operations (41_pin.md section 1). -/

/-- Rule R120: WDir writes the pin's direction bit by the read-modify-write, appends its event, and faults
where it left SDA driven high against the environment. -/
def Obligations.WDirEffect : Prop :=
  ∀ (s : State) (p : Pin) (v : Bool), s.mf = none →
    let u := { s with gpio := rmw s.params s.gpio .dir p v, trace := s.trace ++ [.wDir p v] }
    wDir p v s =
      if p = .sda ∧ u.dirBit .sda = true ∧ u.outBit .sda = true ∧ envPullsSda u.env u.params u.trace = true
      then { u with mf := some .sdaContention } else u

/-- Rule R121: WOut writes the pin's output bit by the read-modify-write, appends its event, and applies the
same contention check. -/
def Obligations.WOutEffect : Prop :=
  ∀ (s : State) (p : Pin) (v : Bool), s.mf = none →
    let u := { s with gpio := rmw s.params s.gpio .out p v, trace := s.trace ++ [.wOut p v] }
    wOut p v s =
      if p = .sda ∧ u.dirBit .sda = true ∧ u.outBit .sda = true ∧ envPullsSda u.env u.params u.trace = true
      then { u with mf := some .sdaContention } else u

/-- Rule R73: the register of a present pin's port takes the mask's bit or loses it, and no other register of
the file changes. -/
def Obligations.ReadModifyWriteRegister : Prop :=
  ∀ (c : Params) (g : Gpio) (r r' : Reg) (p : Pin) (v : Bool) (k : Nat),
    paramsOk c = true → gpioOk c g = true → c.present p = true →
      memRead (rmw c g r p v) r' k =
        if r' = r ∧ k = c.port p then
          (if v then memRead g r k ||| c.mask p else memRead g r k - (memRead g r k &&& c.mask p))
        else memRead g r' k

/-- Rule R122: the value a Sample takes, for each pin and drive, which is in(p), and its event. -/
def Obligations.SampleEffect : Prop :=
  ∀ (s : State), s.mf = none →
    (∀ p, sample p s = ((sample p s).1, { s with trace := s.trace ++ [.sample p (sample p s).1] })) ∧
    (s.dirBit .sda = true → (sample .sda s).1 = s.outBit .sda) ∧
    (s.dirBit .sda = false → (sample .sda s).1 = !envPullsSda s.env s.params s.trace) ∧
    (sample .scl s).1 = (if s.dirBit .scl = true then s.outBit .scl else true) ∧
    (∀ p, p = .debug ∨ p = .trigger →
      (sample p s).1 = if s.dirBit p = true then s.outBit p else envPadLevel s.env p s.trace) ∧
    (s.Ready → ∀ p, s.params.present p = true →
      (sample p s).1 = (s.memReadIn (s.params.port p) &&& s.params.mask p != 0))

/-- Rule R51: bit mask(p) of IN[port(p)] equals the level of p's line or pad, in output mode too. -/
def Obligations.InputRegisterShowsLevels : Prop :=
  ∀ (s : State) (p : Pin), s.Ready → s.params.present p = true →
    (s.memReadIn (s.params.port p) &&& s.params.mask p != 0) = s.level p ∧
      (s.dirBit p = true → s.level p = s.outBit p)

/-! The pin commands (rules R124 to R127). -/

/-- SET_DIR of a present pin completes, with no condition but rule R120's on SDA: one event, RESULT 0x0000,
the pin's direction bit is the operand, every other pin's bits are as before (rule R124). -/
def Obligations.SetDirCompletes : Prop :=
  ∀ (s : State) (p : Pin) (v : Bool), s.Ready → s.params.present p = true →
    ¬ (p = .sda ∧ s.ShortAfter [.wDir p v]) →
      exec (.setDir p v) s = .next (s.completed [.wDir p v] ⟨false, 0⟩) ∧
      (s.completed [.wDir p v] ⟨false, 0⟩).dirBit p = v ∧
      s.SamePins (s.completed [.wDir p v] ⟨false, 0⟩) [p] []

/-- SET_LEVEL of a present pin completes, with no condition but rule R121's on SDA: one event, RESULT 0x0000,
the pin's output bit is the operand, every other pin's bits are as before (rule R125). -/
def Obligations.SetLevelCompletes : Prop :=
  ∀ (s : State) (p : Pin) (v : Bool), s.Ready → s.params.present p = true →
    ¬ (p = .sda ∧ s.ShortAfter [.wOut p v]) →
      exec (.setLevel p v) s = .next (s.completed [.wOut p v] ⟨false, 0⟩) ∧
      (s.completed [.wOut p v] ⟨false, 0⟩).outBit p = v ∧
      s.SamePins (s.completed [.wOut p v] ⟨false, 0⟩) [] [p]

/-- GET_LEVEL of a present pin always completes: one Sample event, RESULT the level in bit 8, no register of
GPIO changed (rule R126). -/
def Obligations.GetLevelCompletes : Prop :=
  ∀ (s : State) (p : Pin), s.Ready → s.params.present p = true →
    exec (.getLevel p) s = .next { s with
      result := if s.level p then 0x0100 else 0x0000
      trace := s.trace ++ [.sample p (s.level p), .cmdEnd (if s.level p then 0x0100 else 0x0000)] }

/-- PULSE of a present pin completes unless it is a driven SDA that the environment pulls low at the second
write: two events, RESULT 0x0000, the output bit is 1 whatever it was, all else as before (rules R123,
R127). -/
def Obligations.PulseCompletes : Prop :=
  ∀ (s : State) (p : Pin), s.Ready → s.params.present p = true →
    (p = .sda → s.dirBit .sda = true →
      envPullsSda s.env s.params (s.trace ++ [.wOut .sda false, .wOut .sda true]) = false) →
      exec (.pulse p) s = .next (s.completed [.wOut p false, .wOut p true] ⟨false, 0⟩) ∧
      (s.completed [.wOut p false, .wOut p true] ⟨false, 0⟩).outBit p = true ∧
      s.SamePins (s.completed [.wOut p false, .wOut p true] ⟨false, 0⟩) [] [p]

/-- PULSE of an absent pin is a no-op that only ends (rules R127, R243). SET_DIR, SET_LEVEL and GET_LEVEL of an
absent pin, which Decode never answers, are command errors with RESULT 0xB000 and no other effect: that exec
answers so is the model's choice (log entry 16), in agreement with rule R241. -/
def Obligations.AbsentPinOutcomes : Prop :=
  ∀ (s : State) (p : Pin) (v : Bool), s.Takes → s.params.present p = false →
    exec (.pulse p) s = .next (s.completed [] ⟨false, 0⟩) ∧
    exec (.setDir p v) s = .next (s.errored 0xB000) ∧
    exec (.setLevel p v) s = .next (s.errored 0xB000) ∧
    exec (.getLevel p) s = .next (s.errored 0xB000)

/-- Where the pin commands meet the short: SET_DIR SDA, 1 with the output bit 1, SET_LEVEL SDA, 1 with the
direction bit 1, and PULSE SDA with the direction bit 1 at its second write, each with the environment
pulling, end in MF_SDA_CONTENTION with what was done kept (rules R124, R125, R127, R244, R246). -/
def Obligations.PinCommandContention : Prop :=
  ∀ s : State, s.Ready →
    (s.outBit .sda = true → envPullsSda s.env s.params (s.trace ++ [.wDir .sda true]) = true →
      exec (.setDir .sda true) s = .next (s.stoppedBy [.wDir .sda true] .sdaContention)) ∧
    (s.dirBit .sda = true → envPullsSda s.env s.params (s.trace ++ [.wOut .sda true]) = true →
      exec (.setLevel .sda true) s = .next (s.stoppedBy [.wOut .sda true] .sdaContention)) ∧
    (s.dirBit .sda = true →
      envPullsSda s.env s.params (s.trace ++ [.wOut .sda false, .wOut .sda true]) = true →
      exec (.pulse .sda) s =
        .next (s.stoppedBy [.wOut .sda false, .wOut .sda true] .sdaContention))

/-! The signal commands (rules R144 to R146). -/

/-- DRIVE_SDA completes: always on release, and on a drive low where the environment does not pull at the
driven-high window; two events, direction first, RESULT 0x0000, SDA's bits (not b, b), all else as before
(rules R141, R143, R144). -/
def Obligations.DriveSdaCompletes : Prop :=
  ∀ (s : State) (b : Bool), s.Ready →
    (b = false → s.outBit .sda = true →
      envPullsSda s.env s.params (s.trace ++ [.wDir .sda true]) = false) →
      exec (.driveSda b) s = .next (s.completed [.wDir .sda (!b), .wOut .sda b] ⟨false, 0⟩) ∧
      (s.completed [.wDir .sda (!b), .wOut .sda b] ⟨false, 0⟩).dirBit .sda = (!b) ∧
      (s.completed [.wDir .sda (!b), .wOut .sda b] ⟨false, 0⟩).outBit .sda = b ∧
      s.SamePins (s.completed [.wDir .sda (!b), .wOut .sda b] ⟨false, 0⟩) [.sda] [.sda]

/-- A driven-high window the environment pulls at: DRIVE_SDA 0, and STOP, whose only window is its first
write, end there in MF_SDA_CONTENTION after WDir(SDA, 1), with no other event, no CmdEnd and RESULT as before
(rules R143, R144, R163, R244, R246). -/
def Obligations.DriveLowContention : Prop :=
  ∀ s : State, s.Ready → s.outBit .sda = true →
    envPullsSda s.env s.params (s.trace ++ [.wDir .sda true]) = true →
      exec (.driveSda false) s = .next (s.stoppedBy [.wDir .sda true] .sdaContention) ∧
      (s.delaySet = true → exec .stop s = .next (s.stoppedBy [.wDir .sda true] .sdaContention))

/-- READ_SDA always completes: one Sample event, RESULT the level in bit 8, nothing else changed; driven low
it is 0 and released it is what the environment leaves (rules R142, R145). -/
def Obligations.ReadSdaCompletes : Prop :=
  ∀ (s : State), s.Ready →
    ∃ b : Bool, exec .readSda s = .next { s with
        result := if b then 0x0100 else 0x0000
        trace := s.trace ++ [.sample .sda b, .cmdEnd (if b then 0x0100 else 0x0000)] } ∧
      (s.dirBit .sda = true → b = s.outBit .sda) ∧
      (s.dirBit .sda = false → b = !envPullsSda s.env s.params s.trace)

/-- DRIVE_SCL completes once CFG_DELAY is written: the clock delay if it is not 0, then the output bit;
RESULT 0x0000, all else as before (rules R140, R146). -/
def Obligations.DriveSclCompletes : Prop :=
  ∀ (s : State) (b : Bool), s.Ready → s.delaySet = true →
    let es : List Event := (if s.cfgDelay = 0 then [] else [.delay s.cfgDelay.toNat]) ++ [.wOut .scl b]
    exec (.driveScl b) s = .next (s.completed es ⟨false, 0⟩) ∧
      (s.completed es ⟨false, 0⟩).outBit .scl = b ∧
      s.SamePins (s.completed es ⟨false, 0⟩) [] [.scl]

/-! The protocol commands (rules R161 to R166). -/

/-- INIT always completes once CFG_DELAY is written, in every environment: its events, RESULT 0x0000, the bus
idle, and a present DEBUG and TRIGGER high outputs (rule R161). -/
def Obligations.InitCompletes : Prop :=
  ∀ s : State, s.Ready → s.delaySet = true →
    let t := s.completed (initEvents s.params s.cfgDelay) ⟨false, 0⟩
    exec .init s = .next t ∧ t.BusIdle ∧
      (s.params.present .debug = true → t.dirBit .debug = true ∧ t.outBit .debug = true) ∧
      (s.params.present .trigger = true → t.dirBit .trigger = true ∧ t.outBit .trigger = true)

/-- START completes where no driven-high window of its own meets a pull of the environment: its events, and
RESULT.FLAG is that the environment pulled SDA low at the 9th clock; else it ends in MF_SDA_CONTENTION at the
first such window (rules R162, R164, R172, R244, R246, R247, R249). -/
def Obligations.StartCompletes : Prop :=
  ∀ (s : State) (a : Byte), s.Ready → s.delaySet = true →
    let ack := envPullsSda s.env s.params
      (s.trace ++ (startHeadEvents s.params s.cfgDelay ++ writeHeadEvents s.cfgDelay a))
    let es := startEvents s.params s.cfgDelay a (!ack)
    (s.QuietAlong es → exec (.start a) s = .next (s.completed es ⟨ack, 0⟩)) ∧
      ∀ h, s.FirstShort es h → exec (.start a) s = .next (s.stoppedBy h .sdaContention)

/-- STOP completes once CFG_DELAY is written, unless SDA's output bit is 1 and the environment pulls SDA low
at its one driven-high window: its events and RESULT 0x0000 (rules R143, R163, R247). -/
def Obligations.StopCompletes : Prop :=
  ∀ s : State, s.Ready → s.delaySet = true →
    (s.outBit .sda = true → envPullsSda s.env s.params (s.trace ++ [.wDir .sda true]) = false) →
      exec .stop s = .next (s.completed (stopEvents s.cfgDelay) ⟨false, 0⟩)

/-- WRITE_BYTE completes where no driven-high window of its own meets a pull of the environment: its events, most
significant bit first, and RESULT.FLAG is that the environment pulled SDA low at the 9th clock; a NACK changes
nothing but the sample and FLAG; else it ends in MF_SDA_CONTENTION at the first such window (rules R164, R167,
R172, R244, R246, R247, R249). -/
def Obligations.WriteByteCompletes : Prop :=
  ∀ (s : State) (d : Byte), s.Ready → s.delaySet = true →
    let ack := envPullsSda s.env s.params (s.trace ++ writeHeadEvents s.cfgDelay d)
    let es := writeByteEvents s.cfgDelay d (!ack)
    (s.QuietAlong es → exec (.writeByte d) s = .next (s.completed es ⟨ack, 0⟩)) ∧
      ∀ h, s.FirstShort es h → exec (.writeByte d) s = .next (s.stoppedBy h .sdaContention)

/-- READ_BYTE completes where no driven-high window of its own meets a pull of the environment: its events with the
eight SDA levels at its sampling points, and RESULT.DATA is their byte, first sample in bit 7; else it ends in
MF_SDA_CONTENTION at the first such window (rules R165, R173, R244, R246, R247, R249). -/
def Obligations.ReadByteCompletes : Prop :=
  ∀ (s : State) (last : Bool), s.Ready → s.delaySet = true →
    let bs := s.readSamples 8
    let es := readByteEvents s.cfgDelay bs last
    (s.QuietAlong es → exec (.readByte last) s = .next (s.completed es ⟨false, byteOfSamples bs⟩)) ∧
      ∀ h, s.FirstShort es h → exec (.readByte last) s = .next (s.stoppedBy h .sdaContention)

/-- IS_PRESENT completes once both configuration registers are written where no driven-high window of its own meets
a pull of the environment: the events of START with CFG_ADDR.ADDR, then those of STOP; RESULT.FLAG is START's
acknowledgment; else it ends in MF_SDA_CONTENTION at the first such window (rules R166, R244, R246, R247,
R249). -/
def Obligations.IsPresentCompletes : Prop :=
  ∀ s : State, s.Ready → s.delaySet = true → s.addrSet = true →
    let a := s.configuredAddr
    let ack := envPullsSda s.env s.params
      (s.trace ++ (startHeadEvents s.params s.cfgDelay ++ writeHeadEvents s.cfgDelay a))
    let es := startEvents s.params s.cfgDelay a (!ack) ++ stopEvents s.cfgDelay
    (s.QuietAlong es → exec .isPresent s = .next (s.completed es ⟨ack, 0⟩)) ∧
      ∀ h, s.FirstShort es h → exec .isPresent s = .next (s.stoppedBy h .sdaContention)

/-- The end states of the protocol commands with SCL an output, and what they leave alone: SDA is released
with its output bit 1, SCL is high after INIT, STOP, READ_BYTE 1 and IS_PRESENT and low after START,
WRITE_BYTE and READ_BYTE 0; no command but INIT changes a direction bit other than SDA's (43_protocol.md
section 3, which the spec marks as derived); and STOP, WRITE_BYTE and READ_BYTE change no output bit but those
of SDA and SCL, START and IS_PRESENT none but those and TRIGGER's (section 2). -/
def Obligations.ProtocolEndStates : Prop :=
  ∀ (s t : State) (i : Instr), s.Ready → s.dirBit .scl = true → exec i s = .next t → t.mf = none →
    (∀ a, i = .start a → t.BusHeld ∧ s.SamePins t [.sda] [.sda, .scl, .trigger]) ∧
    (∀ d, i = .writeByte d ∨ i = .readByte false → t.BusHeld ∧ s.SamePins t [.sda] [.sda, .scl]) ∧
    (i = .init → t.BusIdle) ∧
    (i = .stop ∨ i = .readByte true → t.BusIdle ∧ s.SamePins t [.sda] [.sda, .scl]) ∧
    (i = .isPresent → t.BusIdle ∧ s.SamePins t [.sda] [.sda, .scl, .trigger])

/-- The commands that cannot raise MF_SDA_CONTENTION, in any environment: INIT, READ_SDA, DRIVE_SCL,
GET_LEVEL, DRIVE_SDA 1 and the pin commands on other pins than SDA (rule R246). -/
def Obligations.CommandsWithoutContention : Prop :=
  ∀ (s t : State) (i : Instr), s.Ready → exec i s = .next t →
    (i ∈ [.init, .readSda, .driveSda true] ∨ (∃ b, i = .driveScl b) ∨ (∃ p, i = .getLevel p) ∨
      ∃ p, p ≠ Pin.sda ∧ (i = .pulse p ∨ ∃ v, i = .setDir p v ∨ i = .setLevel p v)) →
    t.mf ≠ some .sdaContention

/-- Every MF_SDA_CONTENTION a command raises comes at a write of SDA that left it driven high while the
environment pulled it low, right after that write's event, with no CmdEnd and RESULT as before (rules R53,
R244, R246). -/
def Obligations.ContentionIsAtAWindow : Prop :=
  ∀ (s t : State) (i : Instr), exec i s = .next t → t.mf = some .sdaContention →
    t.result = s.result ∧ t.dirBit .sda = true ∧ t.outBit .sda = true ∧
      envPullsSda t.env t.params t.trace = true ∧
      ∃ es v, (∀ e ∈ es, isMicro e = true) ∧
        (t.trace = s.trace ++ es ++ [.wDir .sda v] ∨ t.trace = s.trace ++ es ++ [.wOut .sda v])

/-! The wire (43_protocol.md section 3, 20_memory.md rule R76). -/

/-- The serializer, with SCL an output: a WRITE_BYTE that ends without a model fault, in any environment, puts nine
rising edges of SCL on the bus, and msda at the first eight is the byte from bit 7 to bit 0, and released at
the ninth (rule R76; the edge count is 43_protocol.md section 3, which the spec marks as derived). -/
def Obligations.WriteByteOnTheWire : Prop :=
  ∀ (s t : State) (d : Byte), s.Ready → s.dirBit .scl = true → exec (.writeByte d) s = .next t →
    t.mf = none → ∃ es, t.trace = s.trace ++ es ∧
      bitsAtRises s.lines (s.viewOf es) =
        [d.getLsbD 7, d.getLsbD 6, d.getLsbD 5, d.getLsbD 4, d.getLsbD 3, d.getLsbD 2, d.getLsbD 1,
          d.getLsbD 0, true]

/-- The bus conditions of a START and a STOP that end without a model fault, in any environment, with SCL an output
and SDA released with its output bit 1: START makes exactly one master START and no STOP; STOP makes one STOP
from held, and a START and a STOP from idle (43_protocol.md section 3, which the spec marks as derived). -/
def Obligations.StartAndStopOnTheBus : Prop :=
  ∀ s t : State, s.Ready → t.mf = none →
    (∀ a, s.BusIdle ∨ s.BusHeld → exec (.start a) s = .next t → ∃ es, t.trace = s.trace ++ es ∧
      startsIn s.lines (s.viewOf es) = 1 ∧ stopsIn s.lines (s.viewOf es) = 0) ∧
    (s.BusHeld → exec .stop s = .next t → ∃ es, t.trace = s.trace ++ es ∧
      startsIn s.lines (s.viewOf es) = 0 ∧ stopsIn s.lines (s.viewOf es) = 1) ∧
    (s.BusIdle → exec .stop s = .next t → ∃ es, t.trace = s.trace ++ es ∧
      startsIn s.lines (s.viewOf es) = 1 ∧ stopsIn s.lines (s.viewOf es) = 1)

/-- A READ_BYTE from held that ends without a model fault, in any environment: nine rising edges of SCL, one more
where it ends in STOP, the master's acknowledgment at the ninth low for 0 and released for 1, and a STOP only
where it is the last byte (43_protocol.md section 3, which the spec marks as derived). -/
def Obligations.ReadByteOnTheWire : Prop :=
  ∀ (s t : State) (last : Bool), s.Ready → s.BusHeld → exec (.readByte last) s = .next t → t.mf = none →
    ∃ es, t.trace = s.trace ++ es ∧
      bitsAtRises s.lines (s.viewOf es) =
        List.replicate 8 true ++ [last] ++ (if last then [false] else []) ∧
      startsIn s.lines (s.viewOf es) = 0 ∧ stopsIn s.lines (s.viewOf es) = (if last then 1 else 0)

/-- The delays of each command: a lower bound of its time in microseconds, with D = CFG_DELAY and S the
settle delay (70_reset_and_hazards.md section 4, which the spec marks as derived). -/
def Obligations.CommandDelays : Prop :=
  ∀ (s t : State) (i : Instr), s.Ready → exec i s = .next t → t.mf = none →
    ∃ es, t.trace = s.trace ++ es ∧ delayTotal es =
      match i with
      | .init => s.cfgDelay.toNat
      | .start _ => s.params.startSettleUs + 20 * s.cfgDelay.toNat
      | .stop => s.cfgDelay.toNat
      | .writeByte _ => 19 * s.cfgDelay.toNat
      | .readByte last => (if last then 19 else 18) * s.cfgDelay.toNat
      | .isPresent => s.params.startSettleUs + 21 * s.cfgDelay.toNat
      | .driveScl _ => s.cfgDelay.toNat
      | .driveSda _ | .readSda | .setDir _ _ | .setLevel _ _ | .getLevel _ | .pulse _ => 0

/-! The host software (44_paged_host.md, 45_block_iterator_host.md). -/

/-- Rule R201: the device byte of a page. -/
def Obligations.DeviceSelect : Prop :=
  ∀ (c : Params) (base : Byte) (page : Nat),
    (devSelect c base page).toNat =
      if page ≤ c.pageSplit then base.toNat else (base.toNat + c.pageHiOffset.toNat) % 256

/-- LOAD or SAVE with a page above 511 or an offset above 255 is refused, with no command issued; else, once
CFG_ADDR is written, its addressing phase begins with the selected device, the page byte page mod 256 and
the offset byte, and before that it raises MF_UNCONFIGURED (rules R200, R201, R202, R203, R205, R248). The
condition on CFG_ADDR, the host sequence as steps of one command each, and a refusal that sets REFUSED and leaves
all else are the model's (log entries 10, 13, 20). -/
def Obligations.LoadAndSaveBegin : Prop :=
  ∀ (s : State) (op : Xfer) (page offset buf count : Nat) (q : List HostStep), s.Takes →
    s.host.task = .idle →
    s.host.queue = (match op with
      | .load => HostStep.load page offset buf count
      | .save => HostStep.save page offset buf count) :: q →
    (511 < page ∨ 255 < offset → step s = .next { s.dequeued q with refused := true }) ∧
    (page ≤ 511 → offset ≤ 255 → s.addrSet = false →
      step s = .next { s.dequeued q with mf := some .unconfigured }) ∧
    (page ≤ 511 → offset ≤ 255 → s.addrSet = true →
      ∃ job : Job, step s = .next { s with host := { s.host with
          queue := q, task := .transfer job (.start 0) none } } ∧
        job.op = op ∧ job.dev = devSelect s.params s.configuredAddr page ∧
        job.pageByte.toNat = page % 256 ∧ job.offsetByte.toNat = offset ∧ job.buf = buf ∧
        job.count = count)

/-- The addressing phase, phase by phase (rules R203 to R208): each attempt issues START of the device;
acknowledged, the page byte is next; not acknowledged, PULSE DEBUG is next and after it another START, with no
STOP, unless a finite MAX_ATTEMPTS is reached, where STOP and a return of 0 are next; then WRITE_BYTE of the page
byte, then WRITE_BYTE of the offset byte, neither acknowledgment looked at; then LOAD's START in the read
direction, or SAVE's first data byte, or its STOP where there is none. One step is one command of the sequence
(log entry 13). -/
def Obligations.AddressingPhaseRetries : Prop :=
  ∀ (s t : State) (job : Job) (n : Nat) (parent : Option Flash), step s = .next t → t.mf = none →
    (s.host.task = .transfer job (.start n) parent →
      (∃ es, t.trace = s.trace ++ .cmdBegin (encode (.start job.dev)) :: es) ∧
      t.host.task = .transfer job (if t.result.getLsbD 8 then .page else .pulse n) parent) ∧
    (s.host.task = .transfer job (.pulse n) parent →
      (∃ es, t.trace = s.trace ++ .cmdBegin (encode (.pulse .debug)) :: es) ∧
      t.host.task = .transfer job
        (if s.params.maxAttempts = some (n + 1) then .stop 0 else .start (n + 1)) parent) ∧
    (s.host.task = .transfer job .page parent →
      (∃ es, t.trace = s.trace ++ .cmdBegin (encode (.writeByte job.pageByte)) :: es) ∧
      t.host.task = .transfer job .offset parent) ∧
    (s.host.task = .transfer job .offset parent →
      (∃ es, t.trace = s.trace ++ .cmdBegin (encode (.writeByte job.offsetByte)) :: es) ∧
      t.host.task = .transfer job (match job.op with
        | .load => .readStart
        | .save => if 0 < job.count then .data 0 else .stop job.count) parent)

/-- A data byte of LOAD: READ_BYTE, with is_last only on the final byte, and its byte goes to the buffer; a
data byte of SAVE: WRITE_BYTE of the buffer's byte, and host memory is unchanged (rules R207, R208). One step is
one command of the sequence (log entry 13). -/
def Obligations.DataPhaseMovesBytes : Prop :=
  ∀ (s t : State) (job : Job) (j : Nat) (parent : Option Flash), step s = .next t → t.mf = none →
    s.host.task = .transfer job (.data j) parent →
      (job.op = .load →
        (∃ es, t.trace = s.trace ++ .cmdBegin (encode (.readByte (decide (j + 1 = job.count)))) :: es) ∧
        (Memory.wf s.host.mem = true → ∀ x, memByte t.host.mem x =
          if x = job.buf + j then t.result.extractLsb' 0 8 else memByte s.host.mem x)) ∧
      (job.op = .save →
        (∃ es, t.trace = s.trace ++ .cmdBegin (encode (.writeByte (memByte s.host.mem (job.buf + j)))) :: es) ∧
        t.host.mem = s.host.mem)

/-- The rest of a transfer, phase by phase, for every count (rules R204, R207 to R209, R225): LOAD's read-direction
START is followed by the first data byte, or by the return of 0 with no READ_BYTE and no STOP where count is 0;
data byte j by byte j + 1, and the last one by LOAD's return of count or by SAVE's STOP; and STOP by the return,
of count or, after giving up, of 0. A return goes to the host or to the iterator. One step is one command of the
sequence (log entry 13). -/
def Obligations.DataPhaseEndsAndReturns : Prop :=
  ∀ (s t : State) (job : Job) (parent : Option Flash), step s = .next t → t.mf = none →
    (job.op = .load → s.host.task = .transfer job .readStart parent →
      (∃ es, t.trace = s.trace ++ .cmdBegin (encode (.start (job.dev ||| 0x01))) :: es) ∧
      (0 < job.count → t.host.task = .transfer job (.data 0) parent) ∧
      (job.count = 0 → t.HasReturned job 0 parent)) ∧
    (∀ j, s.host.task = .transfer job (.data j) parent →
      (j + 1 < job.count → t.host.task = .transfer job (.data (j + 1)) parent) ∧
      (job.count ≤ j + 1 → job.op = .load → t.HasReturned job job.count parent) ∧
      (job.count ≤ j + 1 → job.op = .save → t.host.task = .transfer job (.stop job.count) parent)) ∧
    (∀ n, s.host.task = .transfer job (.stop n) parent →
      (∃ es, t.trace = s.trace ++ .cmdBegin (encode .stop) :: es) ∧ t.HasReturned job n parent)

/-- The chunks of ITERATE: each at least one byte, inside one block of the device, and at the place of the
range its pointer says (45_block_iterator_host.md section 2, which the spec marks as derived). -/
def Obligations.ChunksStayInBlocks : Prop :=
  ∀ (bsize total addr bytes : Nat), 0 < bsize → ∀ k ∈ chunks bsize total addr bytes,
    1 ≤ k.size ∧ k.offset + k.size ≤ bsize ∧ k.block < total ∧
      k.block * bsize + k.offset = addr + k.ptr

/-- The chunks tile the range: the first starts at pointer 0, each next one where the one before ended and at
offset 0 of its block, and together they service all of it, or what lies below the device's end
(45_block_iterator_host.md section 2, which the spec marks as derived). -/
def Obligations.ChunksTileTheRange : Prop :=
  ∀ (bsize total addr bytes : Nat), 0 < bsize →
    (∀ k, (chunks bsize total addr bytes).head? = some k → k.ptr = 0) ∧
    (chunks bsize total addr bytes).IsChain
      (fun a b => b.ptr = a.ptr + a.size ∧ b.offset = 0) ∧
    serviced (chunks bsize total addr bytes) =
      if addr + bytes ≤ bsize * total then bytes else bsize * total - addr

/-- The flash layer's own steps. FLASH_READ and FLASH_SAVE begin the loop at addr with all bytes remaining, pointer
0 and counter 0, and are refused for a device with BLOCK_SIZE = 0 or that the binding to LOAD and SAVE does not
take. One turn of the loop: at the end of the range, or at a block the device does not have, where the list of
chunks is empty, the sequence ends silently and returns its counter; else the first chunk of the list goes to LOAD
or SAVE with page = block once CFG_ADDR is written, and what is left of the list is that of the loop variables as
HasReturned moves them; before that it raises MF_UNCONFIGURED (rules R220, R222, R225, R227, R228). A turn as one
step, the condition on CFG_ADDR and a refusal that sets REFUSED are the model's (log entries 10, 13, 20). -/
def Obligations.FlashBeginsAndIterates : Prop :=
  (∀ (s : State) (op : Xfer) (addr buf bytes : Nat) (q : List HostStep), s.Takes → s.host.task = .idle →
    s.host.queue = (match op with
      | .load => HostStep.flashRead addr buf bytes
      | .save => HostStep.flashSave addr buf bytes) :: q →
    (s.params.blockSize = 0 ∨ 256 < s.params.blockSize ∨ 512 < s.params.totalBlocks →
      step s = .next { s.dequeued q with refused := true }) ∧
    (1 ≤ s.params.blockSize → s.params.blockSize ≤ 256 → s.params.totalBlocks ≤ 512 →
      step s = .next { s with host := { s.host with
        queue := q, task := .iterate ⟨op, addr, bytes, 0, 0, buf⟩ } })) ∧
  ∀ (s : State) (f : Flash), s.Takes → s.host.task = .iterate f →
    1 ≤ s.params.blockSize → s.params.blockSize ≤ 256 → s.params.totalBlocks ≤ 512 →
    let bsize := s.params.blockSize
    let total := s.params.totalBlocks
    let block := f.addr / bsize
    let offset := f.addr % bsize
    let size := min f.remaining (bsize - offset)
    let job : Job := ⟨f.op, devSelect s.params s.configuredAddr block, BitVec.ofNat 8 block,
      BitVec.ofNat 8 offset, f.buf + f.ptr, size⟩
    (f.remaining = 0 ∨ total ≤ block →
      chunks bsize total f.addr f.remaining = [] ∧
      step s = .next { s with host := { s.host with task := .idle, returned := some f.counter } }) ∧
    (0 < f.remaining → block < total →
      chunks bsize total f.addr f.remaining = ⟨block, offset, size, 0⟩ ::
        (chunks bsize total (f.addr + size) (f.remaining - size)).map
          (fun k => { k with ptr := size + k.ptr }) ∧
      (s.addrSet = true →
        step s = .next { s with host := { s.host with task := .transfer job (.start 0) (some f) } }) ∧
      (s.addrSet = false → step s = .next (s.faultedWith .unconfigured)))
end

