-- ==== Sys2Proof/Laws/Gpio.lean ====
section
/-! SUPPORT. What the register file's operations do, bit by bit: one write changes the one bit of its pin
(rule R73), so the direction and output bits of the four pins read back independently (rule R12). -/

namespace Sys2Proof.Machine

variable {c : Params} {g : Gpio} {p q : Pin} {r r' : Reg} {v : Bool}

/-- A present pin has a one-hot mask of W bits on a port that exists (rule R12). -/
theorem mask_of_present (hc : paramsOk c = true) (hp : c.present p = true) :
    ∃ i, i < c.width ∧ c.mask p = 2 ^ i ∧ c.port p < c.nports := by
  obtain ⟨b, hb⟩ := Option.isSome_iff_exists.1 hp
  simp only [paramsOk, Bool.and_eq_true, decide_eq_true_eq] at hc
  have hall := hc.1.1.1.1.1.1.1.2
  have hmem : b ∈ presentBindings c :=
    List.mem_filterMap.2 ⟨p, by cases p <;> simp, hb⟩
  have hok := (List.all_eq_true.1 hall) b hmem
  simp only [bindingOk, oneHot, Bool.and_eq_true, List.any_eq_true, List.mem_range, beq_iff_eq,
    decide_eq_true_eq] at hok
  obtain ⟨⟨i, hi, hm⟩, hport⟩ := hok
  exact ⟨i, hi, by simp [Params.mask, hb, hm], by simp [Params.port, hb, hport]⟩

/-- Two present pins differ in port or mask (rule R12). -/
theorem binding_injective (hc : paramsOk c = true) (hp : c.present p = true) (hq : c.present q = true)
    (hport : c.port p = c.port q) (hmask : c.mask p = c.mask q) : p = q := by
  simp only [paramsOk, Bool.and_eq_true, decide_eq_true_eq] at hc
  have hnd := hc.1.1.1.1.1.1.2
  obtain ⟨b, hb⟩ := Option.isSome_iff_exists.1 hp
  obtain ⟨b', hb'⟩ := Option.isSome_iff_exists.1 hq
  have hbb : b = b' := by
    simp [Params.port, Params.mask, hb, hb'] at hport hmask
    cases b; cases b'; simp_all
  subst hbb
  by_contra hne
  rcases hd : c.debug with _ | d <;> rcases ht : c.trigger with _ | t <;> cases p <;> cases q <;>
    simp_all [presentBindings, Params.binding]

/-- Reading back a register write. -/
theorem memRead_memWrite (g : Gpio) (r r' : Reg) (k k' v : Nat) :
    memRead (memWrite g r k v) r' k' =
      if r = r' ∧ k = k' ∧ k < g.length then v else memRead g r' k' := by
  unfold memRead memWrite portOf
  by_cases hk : k = k' <;> by_cases hl : k < g.length <;> cases r <;> cases r' <;>
    simp_all [List.getD_eq_getElem?_getD]

/-- A register of W bits reads below 2^W (rule R41). -/
theorem memRead_lt (hg : gpioOk c g = true) (r : Reg) (k : Nat) : memRead g r k < 2 ^ c.width := by
  simp only [gpioOk, Bool.and_eq_true, List.all_eq_true, decide_eq_true_eq] at hg
  unfold memRead portOf
  rw [List.getD_eq_getElem?_getD]
  rcases h : g[k]? with _ | q
  · cases r <;> simp
  · have := hg.2 q (List.mem_of_getElem? h)
    cases r <;> simp [this]

theorem gpioOk_length (hg : gpioOk c g = true) : g.length = c.nports := by
  simp [gpioOk] at hg; exact hg.1

theorem testBit_complementAt (w i j : Nat) :
    (complementAt w (2 ^ i)).testBit j = (decide (j < w) ^^ decide (i = j)) := by
  rw [complementAt, Nat.testBit_xor, Nat.testBit_two_pow_sub_one, Nat.testBit_two_pow]

/-- One read-modify-write changes one bit of one register (rules R45, R73). -/
theorem testBit_rmw (hc : paramsOk c = true) (hg : gpioOk c g = true) (hp : c.present p = true)
    (r r' : Reg) (v : Bool) (k i j : Nat) (hi : c.mask p = 2 ^ i) :
    (memRead (rmw c g r p v) r' k).testBit j =
      if r = r' ∧ c.port p = k ∧ i = j then v else (memRead g r' k).testBit j := by
  obtain ⟨i', hi', hm, hport⟩ := mask_of_present hc hp
  have hii : i' = i := Nat.pow_right_injective (le_refl 2) (hm.symm.trans hi)
  subst hii
  have hlen := gpioOk_length hg
  have hlt := memRead_lt hg r' k
  have hbig : c.width ≤ j → (memRead g r' k).testBit j = false := fun h =>
    Nat.testBit_lt_two_pow (lt_of_lt_of_le hlt (Nat.pow_le_pow_right (by omega) h))
  unfold rmw
  cases v <;> simp only [if_true, if_false, Bool.false_eq_true, memRead_memWrite, hm]
  · by_cases h : r = r' ∧ c.port p = k
    · obtain ⟨rfl, rfl⟩ := h
      rw [if_pos ⟨rfl, rfl, by omega⟩, Nat.testBit_and, testBit_complementAt]
      by_cases hij : i' = j
      · subst hij; simp [hi']
      · by_cases hjw : j < c.width
        · simp [hij, hjw]
        · simp [hij, hjw, hbig (by omega)]
    · rw [if_neg (by tauto), if_neg (by tauto)]
  · by_cases h : r = r' ∧ c.port p = k
    · obtain ⟨rfl, rfl⟩ := h
      rw [if_pos ⟨rfl, rfl, by omega⟩, Nat.testBit_or, Nat.testBit_two_pow]
      by_cases hij : i' = j <;> simp [hij]
    · rw [if_neg (by tauto), if_neg (by tauto)]

/-- The register file keeps its shape (rule R41). -/
theorem gpioOk_rmw (hc : paramsOk c = true) (hg : gpioOk c g = true) (hp : c.present p = true)
    (r : Reg) (v : Bool) : gpioOk c (rmw c g r p v) = true := by
  obtain ⟨i, hi, hm, -⟩ := mask_of_present hc hp
  have hpow : 2 ^ i < 2 ^ c.width := Nat.pow_lt_pow_right (by omega) hi
  have hnew : ∀ n < 2 ^ c.width,
      (if v then n ||| c.mask p else n &&& complementAt c.width (c.mask p)) < 2 ^ c.width := by
    intro n hn
    cases v
    · simp only [if_false, Bool.false_eq_true]
      exact lt_of_le_of_lt Nat.and_le_left hn
    · simp only [if_true, hm]
      exact Nat.or_lt_two_pow hn hpow
  have hport : ∀ k, (portOf g k).dir < 2 ^ c.width ∧ (portOf g k).out < 2 ^ c.width := fun k =>
    ⟨memRead_lt hg .dir k, memRead_lt hg .out k⟩
  have hall : ∀ x ∈ g, x.dir < 2 ^ c.width ∧ x.out < 2 ^ c.width := by
    simp only [gpioOk, Bool.and_eq_true, List.all_eq_true, decide_eq_true_eq] at hg
    exact hg.2
  have hlen := gpioOk_length hg
  have key : ∀ x : Port, x.dir < 2 ^ c.width ∧ x.out < 2 ^ c.width →
      gpioOk c (g.set (c.port p) x) = true := by
    intro x hx
    simp only [gpioOk, Bool.and_eq_true, List.all_eq_true, decide_eq_true_eq, List.length_set,
      beq_iff_eq]
    exact ⟨hlen, fun y hy => (List.mem_or_eq_of_mem_set hy).elim (hall y) (fun h => h ▸ hx)⟩
  have h1 := hnew _ (memRead_lt hg r (c.port p))
  unfold rmw
  cases r <;> cases v <;> simp only [memWrite, if_true, if_false, Bool.false_eq_true] at h1 ⊢ <;>
    exact key _ (by simpa [hport] using h1)

theorem and_two_pow_ne_zero (n i : Nat) : (n &&& 2 ^ i != 0) = n.testBit i := by
  rw [Nat.and_two_pow]
  cases h : n.testBit i <;> simp

/-- dir(p) or out(p) is the bit of p's mask (rule R15). -/
theorem regBit_eq_testBit {i : Nat} (hi : c.mask p = 2 ^ i) (g : Gpio) (r : Reg) :
    regBit c g r p = (memRead g r (c.port p)).testBit i := by
  rw [regBit, hi, and_two_pow_ne_zero]

/-- Writing a pin's bit writes that bit and no bit of another pin or of the other register (rules R12,
R15, R73). -/
theorem regBit_rmw (hc : paramsOk c = true) (hg : gpioOk c g = true) (hp : c.present p = true)
    (hq : c.present q = true) (r r' : Reg) (v : Bool) :
    regBit c (rmw c g r p v) r' q = if r = r' ∧ p = q then v else regBit c g r' q := by
  obtain ⟨i, -, hi, -⟩ := mask_of_present hc hp
  obtain ⟨j, -, hj, -⟩ := mask_of_present hc hq
  rw [regBit_eq_testBit hj, regBit_eq_testBit hj, testBit_rmw hc hg hp r r' v _ i j hi]
  by_cases hr : r = r' <;> by_cases hpq : p = q
  · subst hr hpq
    have : i = j := Nat.pow_right_injective (le_refl 2) (hi.symm.trans hj)
    simp [this]
  · have : ¬ (c.port p = c.port q ∧ i = j) := fun h =>
      hpq (binding_injective hc hp hq h.1 (by rw [hi, hj, h.2]))
    simp [hpq, this]
  · simp [hr]
  · simp [hr]

theorem present_sda : c.present .sda = true := rfl
theorem present_scl : c.present .scl = true := rfl

theorem replay_nil : replay c g [] = g := rfl

theorem replay_cons (e : Event) (es : List Event) :
    replay c g (e :: es) = replay c (writeOf c g e) es := rfl

theorem replay_append (es es' : List Event) :
    replay c g (es ++ es') = replay c (replay c g es) es' := List.foldl_append

/-! Writes of any pin. A write of an absent pin, which no command makes, changes nothing. -/

theorem mask_of_absent (hp : c.present p = false) : c.mask p = 0 := by
  simp only [Params.present, Option.isSome_eq_false_iff, Option.isNone_iff_eq_none] at hp
  simp [Params.mask, hp]

theorem memWrite_same (g : Gpio) (r : Reg) (k : Nat) : memWrite g r k (memRead g r k) = g := by
  have : ∀ q : Port, q = portOf g k → g.set k q = g := by
    rintro q rfl
    by_cases hk : k < g.length
    · simp [portOf, List.getD_eq_getElem?_getD, List.getElem?_eq_getElem hk]
    · simp [List.set_eq_of_length_le (Nat.le_of_not_lt hk)]
  cases r <;> exact this _ rfl

theorem rmw_absent (hg : gpioOk c g = true) (hp : c.present p = false) (r : Reg) (v : Bool) :
    rmw c g r p v = g := by
  have hlt := memRead_lt hg r (c.port p)
  have : memRead g r (c.port p) &&& complementAt c.width 0 = memRead g r (c.port p) := by
    rw [complementAt, Nat.xor_zero, Nat.and_two_pow_sub_one_eq_mod, Nat.mod_eq_of_lt hlt]
  unfold rmw
  simp only [mask_of_absent hp, this, Nat.or_zero, ite_self, memWrite_same]

/-- Every event keeps the shape of the register file (rule R41). -/
theorem gpioOk_event (hc : paramsOk c = true) (hg : gpioOk c g = true) (e : Event) :
    gpioOk c (writeOf c g e) = true := by
  have key : ∀ r p v, gpioOk c (rmw c g r p v) = true := fun r p v => by
    cases hp : c.present p
    · rw [rmw_absent hg hp]; exact hg
    · exact gpioOk_rmw hc hg hp r v
  cases e with
  | wDir p v => exact key .dir p v
  | wOut p v => exact key .out p v
  | cmdBegin _ => exact hg
  | sample _ _ => exact hg
  | delay _ => exact hg
  | cmdEnd _ => exact hg

theorem gpioOk_replay (hc : paramsOk c = true) (hg : gpioOk c g = true) (es : List Event) :
    gpioOk c (replay c g es) = true := by
  induction es generalizing g with
  | nil => exact hg
  | cons e es ih => exact ih (gpioOk_event hc hg e)

/-- A bit of no present pin is in no write (rule R45). -/
theorem testBit_replay_unbound (hc : paramsOk c = true) (hg : gpioOk c g = true) {k j : Nat}
    (hk : ∀ p : Pin, c.present p = true → ¬ (c.port p = k ∧ (c.mask p).testBit j = true))
    (r : Reg) (es : List Event) :
    (memRead (replay c g es) r k).testBit j = (memRead g r k).testBit j := by
  induction es generalizing g with
  | nil => rfl
  | cons e es ih =>
    have key : ∀ r' p v,
        (memRead (rmw c g r' p v) r k).testBit j = (memRead g r k).testBit j := fun r' p v => by
      cases hp : c.present p
      · rw [rmw_absent hg hp]
      · obtain ⟨i, -, hi, -⟩ := mask_of_present hc hp
        rw [testBit_rmw hc hg hp r' r v k i j hi, if_neg]
        rintro ⟨-, h1, rfl⟩
        exact hk p hp ⟨h1, by simp [hi]⟩
    rw [replay_cons, ih (gpioOk_event hc hg e)]
    cases e with
    | wDir p v => exact key .dir p v
    | wOut p v => exact key .out p v
    | cmdBegin _ => rfl
    | sample _ _ => rfl
    | delay _ => rfl
    | cmdEnd _ => rfl

end Sys2Proof.Machine
end

