-- ==== Sys2Proof/Laws/State.lean ====
section
/-! SUPPORT. One lemma per field of State per update of Machine/Ops.lean, each true by rfl, so that no
later proof unfolds a record update. -/

namespace Sys2Proof.Machine

variable (s : State)

@[simp] theorem State.setGpio_params (g : Gpio) : (s.setGpio g).params = s.params := rfl
@[simp] theorem State.setGpio_gpio (g : Gpio) : (s.setGpio g).gpio = g := rfl
@[simp] theorem State.setGpio_result (g : Gpio) : (s.setGpio g).result = s.result := rfl
@[simp] theorem State.setGpio_cfgAddr (g : Gpio) : (s.setGpio g).cfgAddr = s.cfgAddr := rfl
@[simp] theorem State.setGpio_cfgDelay (g : Gpio) : (s.setGpio g).cfgDelay = s.cfgDelay := rfl
@[simp] theorem State.setGpio_addrSet (g : Gpio) : (s.setGpio g).addrSet = s.addrSet := rfl
@[simp] theorem State.setGpio_delaySet (g : Gpio) : (s.setGpio g).delaySet = s.delaySet := rfl
@[simp] theorem State.setGpio_mf (g : Gpio) : (s.setGpio g).mf = s.mf := rfl
@[simp] theorem State.setGpio_refused (g : Gpio) : (s.setGpio g).refused = s.refused := rfl
@[simp] theorem State.setGpio_trace (g : Gpio) : (s.setGpio g).trace = s.trace := rfl
@[simp] theorem State.setGpio_env (g : Gpio) : (s.setGpio g).env = s.env := rfl
@[simp] theorem State.setGpio_host (g : Gpio) : (s.setGpio g).host = s.host := rfl

@[simp] theorem State.emit_params (e : Event) : (s.emit e).params = s.params := rfl
@[simp] theorem State.emit_gpio (e : Event) : (s.emit e).gpio = s.gpio := rfl
@[simp] theorem State.emit_result (e : Event) : (s.emit e).result = s.result := rfl
@[simp] theorem State.emit_cfgAddr (e : Event) : (s.emit e).cfgAddr = s.cfgAddr := rfl
@[simp] theorem State.emit_cfgDelay (e : Event) : (s.emit e).cfgDelay = s.cfgDelay := rfl
@[simp] theorem State.emit_addrSet (e : Event) : (s.emit e).addrSet = s.addrSet := rfl
@[simp] theorem State.emit_delaySet (e : Event) : (s.emit e).delaySet = s.delaySet := rfl
@[simp] theorem State.emit_mf (e : Event) : (s.emit e).mf = s.mf := rfl
@[simp] theorem State.emit_refused (e : Event) : (s.emit e).refused = s.refused := rfl
@[simp] theorem State.emit_trace (e : Event) : (s.emit e).trace = s.trace ++ [e] := rfl
@[simp] theorem State.emit_env (e : Event) : (s.emit e).env = s.env := rfl
@[simp] theorem State.emit_host (e : Event) : (s.emit e).host = s.host := rfl

@[simp] theorem State.setResult_params (r : Word) : (s.setResult r).params = s.params := rfl
@[simp] theorem State.setResult_gpio (r : Word) : (s.setResult r).gpio = s.gpio := rfl
@[simp] theorem State.setResult_result (r : Word) : (s.setResult r).result = r := rfl
@[simp] theorem State.setResult_cfgAddr (r : Word) : (s.setResult r).cfgAddr = s.cfgAddr := rfl
@[simp] theorem State.setResult_cfgDelay (r : Word) : (s.setResult r).cfgDelay = s.cfgDelay := rfl
@[simp] theorem State.setResult_addrSet (r : Word) : (s.setResult r).addrSet = s.addrSet := rfl
@[simp] theorem State.setResult_delaySet (r : Word) : (s.setResult r).delaySet = s.delaySet := rfl
@[simp] theorem State.setResult_mf (r : Word) : (s.setResult r).mf = s.mf := rfl
@[simp] theorem State.setResult_refused (r : Word) : (s.setResult r).refused = s.refused := rfl
@[simp] theorem State.setResult_trace (r : Word) : (s.setResult r).trace = s.trace := rfl
@[simp] theorem State.setResult_env (r : Word) : (s.setResult r).env = s.env := rfl
@[simp] theorem State.setResult_host (r : Word) : (s.setResult r).host = s.host := rfl

@[simp] theorem State.setCfgAddr_params (v : Word) : (s.setCfgAddr v).params = s.params := rfl
@[simp] theorem State.setCfgAddr_gpio (v : Word) : (s.setCfgAddr v).gpio = s.gpio := rfl
@[simp] theorem State.setCfgAddr_result (v : Word) : (s.setCfgAddr v).result = s.result := rfl
@[simp] theorem State.setCfgAddr_cfgAddr (v : Word) : (s.setCfgAddr v).cfgAddr = (v.extractLsb' 0 8).setWidth 16 := rfl
@[simp] theorem State.setCfgAddr_cfgDelay (v : Word) : (s.setCfgAddr v).cfgDelay = s.cfgDelay := rfl
@[simp] theorem State.setCfgAddr_addrSet (v : Word) : (s.setCfgAddr v).addrSet = true := rfl
@[simp] theorem State.setCfgAddr_delaySet (v : Word) : (s.setCfgAddr v).delaySet = s.delaySet := rfl
@[simp] theorem State.setCfgAddr_mf (v : Word) : (s.setCfgAddr v).mf = s.mf := rfl
@[simp] theorem State.setCfgAddr_refused (v : Word) : (s.setCfgAddr v).refused = s.refused := rfl
@[simp] theorem State.setCfgAddr_trace (v : Word) : (s.setCfgAddr v).trace = s.trace := rfl
@[simp] theorem State.setCfgAddr_env (v : Word) : (s.setCfgAddr v).env = s.env := rfl
@[simp] theorem State.setCfgAddr_host (v : Word) : (s.setCfgAddr v).host = s.host := rfl

@[simp] theorem State.setCfgDelay_params (v : Word) : (s.setCfgDelay v).params = s.params := rfl
@[simp] theorem State.setCfgDelay_gpio (v : Word) : (s.setCfgDelay v).gpio = s.gpio := rfl
@[simp] theorem State.setCfgDelay_result (v : Word) : (s.setCfgDelay v).result = s.result := rfl
@[simp] theorem State.setCfgDelay_cfgAddr (v : Word) : (s.setCfgDelay v).cfgAddr = s.cfgAddr := rfl
@[simp] theorem State.setCfgDelay_cfgDelay (v : Word) : (s.setCfgDelay v).cfgDelay = v := rfl
@[simp] theorem State.setCfgDelay_addrSet (v : Word) : (s.setCfgDelay v).addrSet = s.addrSet := rfl
@[simp] theorem State.setCfgDelay_delaySet (v : Word) : (s.setCfgDelay v).delaySet = true := rfl
@[simp] theorem State.setCfgDelay_mf (v : Word) : (s.setCfgDelay v).mf = s.mf := rfl
@[simp] theorem State.setCfgDelay_refused (v : Word) : (s.setCfgDelay v).refused = s.refused := rfl
@[simp] theorem State.setCfgDelay_trace (v : Word) : (s.setCfgDelay v).trace = s.trace := rfl
@[simp] theorem State.setCfgDelay_env (v : Word) : (s.setCfgDelay v).env = s.env := rfl
@[simp] theorem State.setCfgDelay_host (v : Word) : (s.setCfgDelay v).host = s.host := rfl

@[simp] theorem State.raise_params (m : ModelFault) : (s.raise m).params = s.params := rfl
@[simp] theorem State.raise_gpio (m : ModelFault) : (s.raise m).gpio = s.gpio := rfl
@[simp] theorem State.raise_result (m : ModelFault) : (s.raise m).result = s.result := rfl
@[simp] theorem State.raise_cfgAddr (m : ModelFault) : (s.raise m).cfgAddr = s.cfgAddr := rfl
@[simp] theorem State.raise_cfgDelay (m : ModelFault) : (s.raise m).cfgDelay = s.cfgDelay := rfl
@[simp] theorem State.raise_addrSet (m : ModelFault) : (s.raise m).addrSet = s.addrSet := rfl
@[simp] theorem State.raise_delaySet (m : ModelFault) : (s.raise m).delaySet = s.delaySet := rfl
@[simp] theorem State.raise_mf (m : ModelFault) : (s.raise m).mf = some m := rfl
@[simp] theorem State.raise_refused (m : ModelFault) : (s.raise m).refused = s.refused := rfl
@[simp] theorem State.raise_trace (m : ModelFault) : (s.raise m).trace = s.trace := rfl
@[simp] theorem State.raise_env (m : ModelFault) : (s.raise m).env = s.env := rfl
@[simp] theorem State.raise_host (m : ModelFault) : (s.raise m).host = s.host := rfl

@[simp] theorem State.refuse_params : s.refuse.params = s.params := rfl
@[simp] theorem State.refuse_gpio : s.refuse.gpio = s.gpio := rfl
@[simp] theorem State.refuse_result : s.refuse.result = s.result := rfl
@[simp] theorem State.refuse_cfgAddr : s.refuse.cfgAddr = s.cfgAddr := rfl
@[simp] theorem State.refuse_cfgDelay : s.refuse.cfgDelay = s.cfgDelay := rfl
@[simp] theorem State.refuse_addrSet : s.refuse.addrSet = s.addrSet := rfl
@[simp] theorem State.refuse_delaySet : s.refuse.delaySet = s.delaySet := rfl
@[simp] theorem State.refuse_mf : s.refuse.mf = s.mf := rfl
@[simp] theorem State.refuse_refused : s.refuse.refused = true := rfl
@[simp] theorem State.refuse_trace : s.refuse.trace = s.trace := rfl
@[simp] theorem State.refuse_env : s.refuse.env = s.env := rfl
@[simp] theorem State.refuse_host : s.refuse.host = s.host := rfl

@[simp] theorem State.setHost_params (h : HostSide) : (s.setHost h).params = s.params := rfl
@[simp] theorem State.setHost_gpio (h : HostSide) : (s.setHost h).gpio = s.gpio := rfl
@[simp] theorem State.setHost_result (h : HostSide) : (s.setHost h).result = s.result := rfl
@[simp] theorem State.setHost_cfgAddr (h : HostSide) : (s.setHost h).cfgAddr = s.cfgAddr := rfl
@[simp] theorem State.setHost_cfgDelay (h : HostSide) : (s.setHost h).cfgDelay = s.cfgDelay := rfl
@[simp] theorem State.setHost_addrSet (h : HostSide) : (s.setHost h).addrSet = s.addrSet := rfl
@[simp] theorem State.setHost_delaySet (h : HostSide) : (s.setHost h).delaySet = s.delaySet := rfl
@[simp] theorem State.setHost_mf (h : HostSide) : (s.setHost h).mf = s.mf := rfl
@[simp] theorem State.setHost_refused (h : HostSide) : (s.setHost h).refused = s.refused := rfl
@[simp] theorem State.setHost_trace (h : HostSide) : (s.setHost h).trace = s.trace := rfl
@[simp] theorem State.setHost_env (h : HostSide) : (s.setHost h).env = s.env := rfl
@[simp] theorem State.setHost_host (h : HostSide) : (s.setHost h).host = h := rfl

end Sys2Proof.Machine
end

