-- ==== Sys2Proof/Laws/Ops.lean ====
section
/-! SUPPORT. What each named operation can do, said once: the checks before a command, the micro-operations
as "these events happened" (State.did), and the two procedures of the signal layer (rules R120 to R123,
R140 to R143, R244, R256). -/

namespace Sys2Proof.Machine

variable {s t : State} {p q : Pin} {v b : Bool} {es es' : List Event}

/-! Events that happened. -/

@[simp] theorem did_params (s : State) (es : List Event) : (s.did es).params = s.params := rfl
@[simp] theorem did_gpio (s : State) (es : List Event) :
    (s.did es).gpio = replay s.params s.gpio es := rfl
@[simp] theorem did_result (s : State) (es : List Event) : (s.did es).result = s.result := rfl
@[simp] theorem did_cfgAddr (s : State) (es : List Event) : (s.did es).cfgAddr = s.cfgAddr := rfl
@[simp] theorem did_cfgDelay (s : State) (es : List Event) : (s.did es).cfgDelay = s.cfgDelay := rfl
@[simp] theorem did_addrSet (s : State) (es : List Event) : (s.did es).addrSet = s.addrSet := rfl
@[simp] theorem did_delaySet (s : State) (es : List Event) : (s.did es).delaySet = s.delaySet := rfl
@[simp] theorem did_mf (s : State) (es : List Event) : (s.did es).mf = s.mf := rfl
@[simp] theorem did_refused (s : State) (es : List Event) : (s.did es).refused = s.refused := rfl
@[simp] theorem did_trace (s : State) (es : List Event) : (s.did es).trace = s.trace ++ es := rfl
@[simp] theorem did_env (s : State) (es : List Event) : (s.did es).env = s.env := rfl
@[simp] theorem did_host (s : State) (es : List Event) : (s.did es).host = s.host := rfl

theorem did_nil (s : State) : s.did [] = s := by
  cases s; simp [State.did, replay_nil]

theorem did_did (s : State) (es es' : List Event) : (s.did es).did es' = s.did (es ++ es') := by
  simp [State.did, replay_append]

/-! The checks. -/

/-- A state that takes accesses passes the first check (rules R57, R58, R92). -/
theorem gate_of_takes (h : s.Takes) (k : Answer) : s.gate k = k := by
  obtain ⟨hr, hm, hp⟩ := h
  simp [State.gate, hr, hm, hp]

/-- A state that takes commands passes the first check (rules R57, R58, R92). -/
theorem gate_of_ready (h : s.Ready) (k : Answer) : s.gate k = k := by
  obtain ⟨hr, hm, hp, -⟩ := h
  simp [State.gate, hr, hm, hp]

/-- What passed the first check (rules R57, R58, R92). -/
theorem gate_next {k : Answer} (h : s.gate k = .next t) :
    s.refused = false ∧ s.mf = none ∧ paramsOk s.params = true ∧ k = .next t := by
  unfold State.gate at h
  split at h
  · cases h
  · rename_i hr
    split at h
    · cases h
    · rename_i hm
      split at h
      · exact ⟨by simpa using hr, hm, by assumption, h⟩
      · cases h

/-! The micro-operations. -/

/-- WDir(p, v) (rule R120): its event happens, or happens and is the contention fault. -/
theorem wDir_eq (hm : s.mf = none) :
    wDir p v s = if p = .sda ∧ s.ShortAfter [.wDir p v]
      then s.stoppedBy [.wDir p v] .sdaContention else s.did [.wDir p v] := by
  by_cases hp : p = .sda <;>
    simp [wDir, State.unlessFaulted, hm, hp, State.shortCheck, State.ShortAfter, State.did,
      State.stoppedBy, State.setGpio, State.emit, State.raise, replay, writeOf]

/-- WOut(p, v) (rule R121): its event happens, or happens and is the contention fault. -/
theorem wOut_eq (hm : s.mf = none) :
    wOut p v s = if p = .sda ∧ s.ShortAfter [.wOut p v]
      then s.stoppedBy [.wOut p v] .sdaContention else s.did [.wOut p v] := by
  by_cases hp : p = .sda <;>
    simp [wOut, State.unlessFaulted, hm, hp, State.shortCheck, State.ShortAfter, State.did,
      State.stoppedBy, State.setGpio, State.emit, State.raise, replay, writeOf]

/-- Sample(p) (rule R122). -/
theorem sample_eq (hm : s.mf = none) :
    sample p s = (s.level p, s.did [.sample p (s.level p)]) := by
  simp [sample, State.unlessFaulted, hm, State.did, State.emit, replay, writeOf]

/-- Delay(n) (rule R256). -/
theorem delay_eq (hm : s.mf = none) (n : Nat) : delay n s = s.did [.delay n] := by
  simp [delay, State.unlessFaulted, hm, State.did, State.emit, replay, writeOf]

/-- After a model fault no micro-operation happens (rules R244, R249). -/
theorem wDir_faulted (hm : s.mf ≠ none) : wDir p v s = s := by
  simp [wDir, State.unlessFaulted, Option.isSome_iff_ne_none.2 hm]

theorem wOut_faulted (hm : s.mf ≠ none) : wOut p v s = s := by
  simp [wOut, State.unlessFaulted, Option.isSome_iff_ne_none.2 hm]

theorem sample_faulted (hm : s.mf ≠ none) : (sample p s).2 = s := by
  simp [sample, State.unlessFaulted, Option.isSome_iff_ne_none.2 hm]

theorem delay_faulted (hm : s.mf ≠ none) (n : Nat) : delay n s = s := by
  simp [delay, State.unlessFaulted, Option.isSome_iff_ne_none.2 hm]

/-- The end of a command without error (rules R97, R98). -/
theorem finish_did (hm : s.mf = none) (es : List Event) (r : Reply) :
    (s.did es).finish r = s.completed es r := by
  simp [State.finish, State.unlessFaulted, hm, State.did, State.completed, State.setResult, State.emit]

/-- The end of a command that a model fault ended (rule R244). -/
theorem finish_faulted (hm : s.mf ≠ none) (r : Reply) : s.finish r = s := by
  simp [State.finish, Option.isSome_iff_ne_none.2 hm, State.unlessFaulted]

/-- A write of another pin than SDA never faults (rule R246). -/
theorem wDir_other (hm : s.mf = none) (hp : p ≠ .sda) : wDir p v s = s.did [.wDir p v] := by
  simp [wDir_eq hm, hp]

theorem wOut_other (hm : s.mf = none) (hp : p ≠ .sda) : wOut p v s = s.did [.wOut p v] := by
  simp [wOut_eq hm, hp]

/-! The bits of the pins after events. -/

/-- The register file keeps its shape, whatever pins are written: a write of an absent pin changes
nothing (rules R41, R75). -/
theorem gpioOk_writeOf (hc : paramsOk s.params = true) (hg : gpioOk s.params s.gpio = true)
    (e : Event) (he : ∀ p v, e = .wDir p v ∨ e = .wOut p v → s.params.present p = true) :
    gpioOk s.params (writeOf s.params s.gpio e) = true := by
  cases e with
  | wDir p v => exact gpioOk_rmw hc hg (he p v (.inl rfl)) _ _
  | wOut p v => exact gpioOk_rmw hc hg (he p v (.inr rfl)) _ _
  | cmdBegin _ => exact hg
  | sample _ _ => exact hg
  | delay _ => exact hg
  | cmdEnd _ => exact hg

/-- dir(q) and out(q) after one write of a present pin (rules R15, R73). -/
theorem dirBit_did_wDir (hc : paramsOk s.params = true) (hg : gpioOk s.params s.gpio = true)
    (hp : s.params.present p = true) (hq : s.params.present q = true) :
    (s.did [.wDir p v]).dirBit q = if p = q then v else s.dirBit q := by
  simp only [State.dirBit, did_params, did_gpio, replay_cons, replay_nil, writeOf,
    regBit_rmw hc hg hp hq, true_and]

theorem outBit_did_wDir (hc : paramsOk s.params = true) (hg : gpioOk s.params s.gpio = true)
    (hp : s.params.present p = true) (hq : s.params.present q = true) :
    (s.did [.wDir p v]).outBit q = s.outBit q := by
  simp [State.outBit, replay_cons, replay_nil, writeOf, regBit_rmw hc hg hp hq]

theorem outBit_did_wOut (hc : paramsOk s.params = true) (hg : gpioOk s.params s.gpio = true)
    (hp : s.params.present p = true) (hq : s.params.present q = true) :
    (s.did [.wOut p v]).outBit q = if p = q then v else s.outBit q := by
  simp only [State.outBit, did_params, did_gpio, replay_cons, replay_nil, writeOf,
    regBit_rmw hc hg hp hq, true_and]

theorem dirBit_did_wOut (hc : paramsOk s.params = true) (hg : gpioOk s.params s.gpio = true)
    (hp : s.params.present p = true) (hq : s.params.present q = true) :
    (s.did [.wOut p v]).dirBit q = s.dirBit q := by
  simp [State.dirBit, replay_cons, replay_nil, writeOf, regBit_rmw hc hg hp hq]

/-- The bit of a pin in a register after events, from its value before them (rules R45, R73). -/
def bitAfter (r : Reg) (q : Pin) : Bool → List Event → Bool
  | b, [] => b
  | b, .wDir p v :: es => bitAfter r q (if r = .dir ∧ p = q then v else b) es
  | b, .wOut p v :: es => bitAfter r q (if r = .out ∧ p = q then v else b) es
  | b, .cmdBegin _ :: es => bitAfter r q b es
  | b, .sample _ _ :: es => bitAfter r q b es
  | b, .delay _ :: es => bitAfter r q b es
  | b, .cmdEnd _ :: es => bitAfter r q b es

theorem regBit_rmw_any {c : Params} {g : Gpio} (hc : paramsOk c = true) (hg : gpioOk c g = true)
    (hq : c.present q = true) (r r' : Reg) (p : Pin) (v : Bool) :
    regBit c (rmw c g r p v) r' q = if r' = r ∧ p = q then v else regBit c g r' q := by
  cases hp : c.present p
  · rw [rmw_absent hg hp, if_neg]
    rintro ⟨-, rfl⟩
    rw [hq] at hp
    cases hp
  · rw [regBit_rmw hc hg hp hq]
    simp only [eq_comm]

theorem regBit_replay {c : Params} {g : Gpio} (hc : paramsOk c = true) (hg : gpioOk c g = true)
    (hq : c.present q = true) (r : Reg) (es : List Event) :
    regBit c (replay c g es) r q = bitAfter r q (regBit c g r q) es := by
  induction es generalizing g with
  | nil => rfl
  | cons e es ih =>
    rw [replay_cons, ih (gpioOk_event hc hg e)]
    cases e with
    | wDir p v => rw [writeOf, regBit_rmw_any hc hg hq]; rfl
    | wOut p v => rw [writeOf, regBit_rmw_any hc hg hq]; rfl
    | cmdBegin _ => rfl
    | sample _ _ => rfl
    | delay _ => rfl
    | cmdEnd _ => rfl

theorem bitAfter_append (r : Reg) (q : Pin) (b : Bool) (es es' : List Event) :
    bitAfter r q b (es ++ es') = bitAfter r q (bitAfter r q b es) es' := by
  induction es generalizing b with
  | nil => rfl
  | cons e es ih => cases e <;> exact ih _

/-- dir(q) and out(q) after any events (rules R15, R73). -/
theorem dirBit_did (h : s.Ready) (hq : s.params.present q = true) (es : List Event) :
    (s.did es).dirBit q = bitAfter .dir q (s.dirBit q) es :=
  regBit_replay h.2.2.1 h.2.2.2 hq .dir es

theorem outBit_did (h : s.Ready) (hq : s.params.present q = true) (es : List Event) :
    (s.did es).outBit q = bitAfter .out q (s.outBit q) es :=
  regBit_replay h.2.2.1 h.2.2.2 hq .out es

/-- drive(p) in terms of the two bits (rule R47). -/
theorem driveOf_eq (s : State) (p : Pin) :
    s.driveOf p = if s.dirBit p then (if s.outBit p then .high else .low) else .released := rfl

theorem ready_did (h : s.Ready) (hg : gpioOk s.params (s.did es).gpio = true) : (s.did es).Ready :=
  ⟨h.1, h.2.1, h.2.2.1, hg⟩

/-- Whatever events happened, the block still takes commands (rule R41). -/
theorem ready_after (h : s.Ready) (es : List Event) : (s.did es).Ready :=
  ready_did h (gpioOk_replay h.2.2.1 h.2.2.2 es)

/-- A state that took one event is still one that takes commands. -/
theorem ready_did_one (h : s.Ready) (e : Event)
    (he : ∀ p v, e = .wDir p v ∨ e = .wOut p v → s.params.present p = true) : (s.did [e]).Ready :=
  ready_did h (gpioOk_writeOf h.2.2.1 h.2.2.2 e he)

/-! The procedures of the signal layer. -/

/-- drive_scl(b) never faults (rules R140, R246). -/
theorem driveScl_did (hm : s.mf = none) (b : Bool) :
    driveSclSeq b s = s.did (sclEvents s.cfgDelay b) := by
  by_cases h : s.cfgDelay = 0
  · simp [driveSclSeq, sclEvents, h, wOut_other hm]
  · have hm' : (s.did [.delay s.cfgDelay.toNat]).mf = none := hm
    rw [driveSclSeq, if_neg h, delay_eq hm, wOut_other hm' (by simp), did_did,
      sclEvents, if_neg h]

/-- drive_sda(1) has no driven-high window, so it never faults (rules R141, R143, R161). -/
theorem driveSda_release (h : s.Ready) : driveSdaSeq true s = s.did (sdaEvents true) := by
  obtain ⟨-, hm, hc, hg⟩ := h
  have h1 : (s.did [.wDir .sda false]).dirBit .sda = false := by
    simp [dirBit_did_wDir hc hg present_sda present_sda]
  have hg1 := gpioOk_rmw hc hg present_sda .dir false
  have e1 : wDir .sda false s = s.did [.wDir .sda false] := by
    rw [wDir_eq hm, if_neg]
    simp [State.ShortAfter, driveOf_eq, h1]
  have h2 : ((s.did [.wDir .sda false]).did [.wOut .sda true]).dirBit .sda = false := by
    rw [dirBit_did_wOut (s := s.did [.wDir .sda false]) hc hg1 present_sda present_sda, h1]
  have hm1 : (s.did [.wDir .sda false]).mf = none := hm
  rw [driveSdaSeq, Bool.not_true, e1, wOut_eq hm1, if_neg, did_did]
  · rfl
  · simp [State.ShortAfter, driveOf_eq, h2]

/-- drive_sda(0) faults exactly at its driven-high window (rules R143, R246): SDA's output bit was 1 and
the environment pulls SDA low right after WDir(SDA, 1). -/
theorem driveSda_low (h : s.Ready) :
    driveSdaSeq false s = if s.outBit .sda = true ∧ (s.did [.wDir .sda true]).pullsSda = true
      then s.stoppedBy [.wDir .sda true] .sdaContention else s.did (sdaEvents false) := by
  obtain ⟨-, hm, hc, hg⟩ := h
  have h1 : (s.did [.wDir .sda true]).dirBit .sda = true := by
    simp [dirBit_did_wDir hc hg present_sda present_sda]
  have ho1 : (s.did [.wDir .sda true]).outBit .sda = s.outBit .sda :=
    outBit_did_wDir hc hg present_sda present_sda
  have hg1 := gpioOk_rmw hc hg present_sda .dir true
  have h2 : ((s.did [.wDir .sda true]).did [.wOut .sda false]).outBit .sda = false := by
    simp [outBit_did_wOut (s := s.did [.wDir .sda true]) hc hg1 present_sda present_sda]
  have hm1 : (s.did [.wDir .sda true]).mf = none := hm
  by_cases hw : s.outBit .sda = true ∧ (s.did [.wDir .sda true]).pullsSda = true
  · have hs : s.ShortAfter [.wDir .sda true] :=
      ⟨by simp [driveOf_eq, h1, ho1, hw.1], hw.2⟩
    rw [driveSdaSeq, Bool.not_false, wDir_eq hm, if_pos ⟨rfl, hs⟩, if_pos hw,
      wOut_faulted (by simp [State.stoppedBy])]
  · have hs : ¬ s.ShortAfter [.wDir .sda true] := fun hs => hw (by
      have := hs.1
      rw [driveOf_eq, h1, ho1] at this
      cases ho : s.outBit .sda
      · simp [ho] at this
      · exact ⟨rfl, hs.2⟩)
    rw [driveSdaSeq, Bool.not_false, wDir_eq hm, if_neg (by simp [hs]), if_neg hw, wOut_eq hm1,
      if_neg, did_did]
    · rfl
    · have hd : ((s.did [.wDir .sda true]).did [.wOut .sda false]).driveOf .sda ≠ .high := by
        rw [driveOf_eq, h2]; split <;> simp
      exact fun hx => hd hx.2.1

/-- The events of drive_scl and drive_sda write present pins only. -/
theorem ready_scl (h : s.Ready) (d : Word) (b : Bool) : (s.did (sclEvents d b)).Ready := by
  by_cases hd : d = 0
  · simp only [sclEvents, hd, if_true, List.nil_append]
    exact ready_did_one h _ (by rintro p v (h | h) <;> cases h; rfl)
  · simp only [sclEvents, hd, if_false]
    rw [← did_did]
    exact ready_did_one (ready_did_one h _ (by rintro p v (h | h) <;> cases h)) _
      (by rintro p v (h | h) <;> cases h; rfl)

theorem ready_sda (h : s.Ready) (b : Bool) : (s.did (sdaEvents b)).Ready := by
  have : sdaEvents b = [.wDir .sda (!b)] ++ [.wOut .sda b] := rfl
  rw [this, ← did_did]
  exact ready_did_one (ready_did_one h _ (by rintro p v (h | h) <;> cases h; rfl)) _
    (by rintro p v (h | h) <;> cases h; rfl)

theorem ready_sample (h : s.Ready) (p : Pin) (b : Bool) : (s.did [.sample p b]).Ready :=
  ready_did_one h _ (by rintro p v (h | h) <;> cases h)

theorem ready_delay (h : s.Ready) (n : Nat) : (s.did [.delay n]).Ready :=
  ready_did_one h _ (by rintro p v (h | h) <;> cases h)

end Sys2Proof.Machine
end

