-- ==== Sys2Proof/Laws/Exec.lean ====
section
/-! SUPPORT. What a command can do, said once: its sequence only moves GPIO and the trace (Moved), and exec
answers a next state only as exec_next says. Every frame and every invariant is read off that. -/

namespace Sys2Proof.Machine

variable {s t u : State} {p : Pin} {v : Bool} {i : Instr}

/-- The contention fault was just raised (rules R53, R246): SDA is driven high against a pull of the
environment, right after an event that wrote an SDA bit. -/
structure Shorted (s t : State) : Prop where
  mf : t.mf = some .sdaContention
  dir : t.dirBit .sda = true
  out : t.outBit .sda = true
  pull : envPullsSda t.env t.params t.trace = true
  events : ∃ (es : List Event) (v : Bool), (∀ e ∈ es, isMicro e = true) ∧
    (t.trace = s.trace ++ es ++ [.wDir .sda v] ∨ t.trace = s.trace ++ es ++ [.wOut .sda v])

/-- From s to t only micro-operations happened: their events are appended, GPIO holds what their writes
left, and MF may be set. -/
structure Moved (s t : State) : Prop where
  params : t.params = s.params
  result : t.result = s.result
  cfgAddr : t.cfgAddr = s.cfgAddr
  cfgDelay : t.cfgDelay = s.cfgDelay
  addrSet : t.addrSet = s.addrSet
  delaySet : t.delaySet = s.delaySet
  refused : t.refused = s.refused
  env : t.env = s.env
  host : t.host = s.host
  /-- After a model fault nothing happens (rules R244, R249). -/
  faulted : s.mf ≠ none → t = s
  /-- A model fault on the way is the contention fault, at the last event (rule R246). -/
  shorted : s.mf = none → t.mf ≠ none → Shorted s t
  events : ∃ es : List Event, (∀ e ∈ es, isMicro e = true) ∧ t.trace = s.trace ++ es ∧
    t.gpio = replay s.params s.gpio es

theorem moved_refl (s : State) : Moved s s :=
  ⟨rfl, rfl, rfl, rfl, rfl, rfl, rfl, rfl, rfl, fun _ => rfl,
    fun h h' => absurd h h', [], by simp, by simp, rfl⟩

theorem moved_trans (h : Moved s t) (h' : Moved t u) : Moved s u := by
  obtain ⟨a1, a2, a3, a4, a5, a6, a7, a8, a9, af, aw, es, he, ht, hg⟩ := h
  obtain ⟨b1, b2, b3, b4, b5, b6, b7, b8, b9, bf, bw, es', he', ht', hg'⟩ := h'
  refine ⟨b1.trans a1, b2.trans a2, b3.trans a3, b4.trans a4, b5.trans a5, b6.trans a6, b7.trans a7,
    b8.trans a8, b9.trans a9, fun hm => (bf (af hm ▸ hm)).trans (af hm), fun hm hu => ?_, es ++ es', ?_, ?_, ?_⟩
  · by_cases hmt : t.mf = none
    · obtain ⟨c1, c2, c3, c4, es₂, v, he₂, hv⟩ := bw hmt hu
      refine ⟨c1, c2, c3, c4, es ++ es₂, v, fun e h => (List.mem_append.1 h).elim (he e) (he₂ e), ?_⟩
      simpa only [ht, List.append_assoc] using hv
    · obtain rfl := bf hmt
      exact aw hm hu
  · intro e h
    exact (List.mem_append.1 h).elim (he e) (he' e)
  · rw [ht', ht, List.append_assoc]
  · rw [hg', a1, hg, replay_append]

/-- A sequence that ends without a model fault had none before (rule R244). -/
theorem moved_unfaulted (h : Moved s t) (hm : t.mf = none) : s.mf = none := by
  by_contra hs
  exact hs (h.faulted hs ▸ hm)

theorem moved_did (hm : s.mf = none) {es : List Event} (he : ∀ e ∈ es, isMicro e = true) :
    Moved s (s.did es) :=
  ⟨rfl, rfl, rfl, rfl, rfl, rfl, rfl, rfl, rfl, fun h => absurd hm h,
    fun h h' => absurd h h', es, he, rfl, rfl⟩

theorem driveOf_high (h : s.driveOf p = .high) : s.dirBit p = true ∧ s.outBit p = true := by
  rw [driveOf_eq] at h
  split_ifs at h with h1 h2
  exact ⟨h1, h2⟩

/-- The one way a write ends in a model fault (rules R120, R121). -/
theorem moved_short (hm : s.mf = none) {e : Event} {v : Bool} (he : e = .wDir .sda v ∨ e = .wOut .sda v)
    (hs : s.ShortAfter [e]) : Moved s (s.stoppedBy [e] .sdaContention) := by
  have hb : (s.did [e]).dirBit .sda = true ∧ (s.did [e]).outBit .sda = true := driveOf_high hs.1
  refine ⟨rfl, rfl, rfl, rfl, rfl, rfl, rfl, rfl, rfl, fun h => absurd hm h,
    fun _ _ => ⟨rfl, hb.1, hb.2, hs.2, [], v, by simp, ?_⟩, [e], ?_, rfl, rfl⟩
  · rcases he with rfl | rfl
    · exact .inl (by simp [State.stoppedBy])
    · exact .inr (by simp [State.stoppedBy])
  · rcases he with rfl | rfl <;> simp [isMicro]

theorem moved_wDir (p : Pin) (v : Bool) (s : State) : Moved s (wDir p v s) := by
  by_cases hm : s.mf = none
  · rw [wDir_eq hm]
    split
    · rename_i h
      obtain ⟨rfl, hs⟩ := h
      exact moved_short hm (.inl rfl) hs
    · exact moved_did hm (by simp [isMicro])
  · rw [wDir_faulted hm]; exact moved_refl s

theorem moved_wOut (p : Pin) (v : Bool) (s : State) : Moved s (wOut p v s) := by
  by_cases hm : s.mf = none
  · rw [wOut_eq hm]
    split
    · rename_i h
      obtain ⟨rfl, hs⟩ := h
      exact moved_short hm (.inr rfl) hs
    · exact moved_did hm (by simp [isMicro])
  · rw [wOut_faulted hm]; exact moved_refl s

theorem moved_sample (p : Pin) (s : State) : Moved s (sample p s).2 := by
  by_cases hm : s.mf = none
  · rw [sample_eq hm]; exact moved_did hm (by simp [isMicro])
  · rw [sample_faulted hm]; exact moved_refl s

theorem moved_delay (n : Nat) (s : State) : Moved s (delay n s) := by
  by_cases hm : s.mf = none
  · rw [delay_eq hm]; exact moved_did hm (by simp [isMicro])
  · rw [delay_faulted hm]; exact moved_refl s

theorem moved_pulse (p : Pin) (s : State) : Moved s (pulseSeq p s) := by
  unfold pulseSeq
  split
  · exact moved_trans (moved_wOut _ _ _) (moved_wOut _ _ _)
  · exact moved_refl s

theorem moved_scl (b : Bool) (s : State) : Moved s (driveSclSeq b s) := by
  unfold driveSclSeq
  split
  · exact moved_wOut _ _ _
  · exact moved_trans (moved_delay _ _) (moved_wOut _ _ _)

theorem moved_sda (b : Bool) (s : State) : Moved s (driveSdaSeq b s) :=
  moved_trans (moved_wDir _ _ _) (moved_wOut _ _ _)

theorem moved_initPin (p : Pin) (s : State) : Moved s (initPin p s) := by
  unfold initPin
  split
  · exact moved_trans (moved_wOut _ _ _) (moved_wDir _ _ _)
  · exact moved_refl s

theorem moved_init (s : State) : Moved s (initSeq s) :=
  moved_trans (moved_trans (moved_trans (moved_trans (moved_sda _ _) (moved_wDir _ _ _)) (moved_scl _ _))
    (moved_initPin _ _)) (moved_initPin _ _)

theorem moved_stop (s : State) : Moved s (stopSeq s) :=
  moved_trans (moved_trans (moved_sda _ _) (moved_scl _ _)) (moved_sda _ _)

theorem moved_writeBits (d : Byte) (is : List Nat) (s : State) : Moved s (writeBits d is s) := by
  induction is generalizing s with
  | nil => exact moved_refl s
  | cons i is ih =>
    exact moved_trans (moved_trans (moved_trans (moved_sda _ _) (moved_scl _ _)) (moved_scl _ _)) (ih _)

theorem moved_writeHead (d : Byte) (s : State) : Moved s (writeByteHead d s) := by
  have h := moved_trans (moved_scl false s) (moved_writeBits d msbFirst (driveSclSeq false s))
  unfold writeByteHead
  generalize writeBits d msbFirst (driveSclSeq false s) = m at h ⊢
  exact moved_trans (moved_trans h (moved_sda true m)) (moved_scl true _)

theorem moved_writeByte (d : Byte) (s : State) : Moved s (writeByteSeq d s).2 := by
  have h := moved_writeHead d s
  unfold writeByteSeq
  generalize writeByteHead d s = m at h ⊢
  exact moved_trans (moved_trans h (moved_sample .sda m)) (moved_scl false _)

theorem moved_start (a : Byte) (s : State) : Moved s (startSeq a s).2 := by
  have h := moved_trans (moved_trans (moved_trans (moved_pulse .trigger s)
    (moved_delay s.params.startSettleUs _)) (moved_scl true _)) (moved_sda false _)
  unfold startSeq
  generalize driveSdaSeq false
    (driveSclSeq true (delay s.params.startSettleUs (pulseSeq .trigger s))) = m at h ⊢
  exact moved_trans h (moved_writeByte a m)

theorem moved_readBits (is : List Nat) (r : Byte) (s : State) : Moved s (readBits is r s).2 := by
  induction is generalizing r s with
  | nil => exact moved_refl s
  | cons i is ih =>
    exact moved_trans (moved_trans (moved_trans (moved_scl _ _) (moved_sample _ _)) (moved_scl _ _))
      (ih _ _)

theorem moved_readByte (last : Bool) (s : State) : Moved s (readByteSeq last s).2 := by
  have h := moved_readBits msbFirst 0 s
  unfold readByteSeq
  generalize readBits msbFirst 0 s = m at h ⊢
  have h' := moved_trans (moved_trans (moved_trans h (moved_sda last m.2)) (moved_scl true _))
    (moved_scl false _)
  cases last
  · exact moved_trans h' (moved_sda true _)
  · exact moved_trans h' (moved_stop _)

theorem moved_isPresent (s : State) : Moved s (isPresentSeq s).2 := by
  have h := moved_start s.addrByte s
  unfold isPresentSeq
  generalize startSeq s.addrByte s = m at h ⊢
  exact moved_trans h (moved_stop m.2)

/-- How a command that was taken ends: as the end of its sequence; in MF_UNCONFIGURED before it; or in the
absent-pin error (rules R97, R241, R244). -/
inductive Ended (s : State) : State → Prop where
  | finished (m : State) (r : Reply) (h : Moved s m) : Ended s (m.finish r)
  | unconfigured : Ended s (s.raise .unconfigured)
  | absentPin : Ended s (s.commandError .absentPin)

theorem ended_gate {k : Answer} (h : s.gate k = .next t) (hk : k = .next t → Ended s t) :
    s.refused = false ∧ s.mf = none ∧ paramsOk s.params = true ∧ Ended s t :=
  ⟨(gate_next h).1, (gate_next h).2.1, (gate_next h).2.2.1, hk (gate_next h).2.2.2⟩

theorem ended_needDelay {k : Answer} (h : s.needDelay k = .next t) (hk : k = .next t → Ended s t) :
    Ended s t := by
  unfold State.needDelay at h
  split at h
  · exact hk h
  · cases h; exact .unconfigured

theorem ended_needAddr {k : Answer} (h : s.needAddr k = .next t) (hk : k = .next t → Ended s t) :
    Ended s t := by
  unfold State.needAddr at h
  split at h
  · exact hk h
  · cases h; exact .unconfigured

theorem ended_needPin {k : Answer} (h : s.needPin p k = .next t) (hk : k = .next t → Ended s t) :
    Ended s t := by
  unfold State.needPin at h
  split at h
  · exact hk h
  · cases h; exact .absentPin

theorem ended_finish {m : State} {r : Reply} (hm : Moved s m) (h : (.next (m.finish r) : Answer) = .next t) :
    Ended s t := by
  cases h; exact .finished m r hm

/-- What exec can do: it answers a next state only from a state that takes commands, and then the command
ended in one of the three ways. -/
theorem exec_next (h : exec i s = .next t) :
    s.refused = false ∧ s.mf = none ∧ paramsOk s.params = true ∧ Ended s t := by
  cases i
  case init => exact ended_gate h fun h => ended_needDelay h (ended_finish (moved_init s))
  case start a => exact ended_gate h fun h => ended_needDelay h (ended_finish (moved_start a s))
  case stop => exact ended_gate h fun h => ended_needDelay h (ended_finish (moved_stop s))
  case writeByte d =>
    exact ended_gate h fun h => ended_needDelay h (ended_finish (moved_writeByte d s))
  case readByte l =>
    exact ended_gate h fun h => ended_needDelay h (ended_finish (moved_readByte l s))
  case isPresent =>
    exact ended_gate h fun h => ended_needDelay h fun h =>
      ended_needAddr h (ended_finish (moved_isPresent s))
  case driveSda b => exact ended_gate h (ended_finish (moved_sda b s))
  case readSda => exact ended_gate h (ended_finish (moved_sample .sda s))
  case driveScl b => exact ended_gate h fun h => ended_needDelay h (ended_finish (moved_scl b s))
  case setDir p v => exact ended_gate h fun h => ended_needPin h (ended_finish (moved_wDir p v s))
  case setLevel p v => exact ended_gate h fun h => ended_needPin h (ended_finish (moved_wOut p v s))
  case getLevel p => exact ended_gate h fun h => ended_needPin h (ended_finish (moved_sample p s))
  case pulse p => exact ended_gate h (ended_finish (moved_pulse p s))

/-- A command never stops without a state where it is taken (rule R240). -/
theorem exec_answers (h : s.Takes) (i : Instr) : ∃ t, exec i s = .next t := by
  cases i <;>
    simp only [exec, execInit, execStart, execStop, execWriteByte, execReadByte, execIsPresent,
      execDriveSda, execReadSda, execDriveScl, execSetDir, execSetLevel, execGetLevel, execPulse,
      gate_of_takes h, State.needDelay, State.needAddr, State.needPin] <;>
    (try split_ifs) <;> exact ⟨_, rfl⟩

end Sys2Proof.Machine
end

