-- ==== Sys2Proof/Laws/Memory.lean ====
section
/-! SUPPORT. Host memory: every operation keeps the canonical form, a read after a write to the same address
gives the byte written, and a write leaves every other address alone. -/

namespace Sys2Proof.Machine

variable {m : Memory} {a x lo : Nat} {b : Byte}

theorem memWfFrom_mono {lo' : Nat} (h : memWfFrom lo m = true) (hl : lo' ≤ lo) :
    memWfFrom lo' m = true := by
  cases m with
  | nil => rfl
  | cons c m =>
    simp only [memWfFrom, Bool.and_eq_true, decide_eq_true_eq] at h ⊢
    exact ⟨⟨by omega, h.1.2⟩, h.2⟩

theorem memWfFrom_consCell (h : memWfFrom (a + 1) m = true) (hl : lo ≤ a) :
    memWfFrom lo (consCell a b m) = true := by
  unfold consCell
  split
  · exact memWfFrom_mono h (by omega)
  · rename_i hb
    simp [memWfFrom, hl, hb, h]

/-- A write keeps the canonical form. -/
theorem memWfFrom_memSet (h : memWfFrom lo m = true) (hl : lo ≤ a) :
    memWfFrom lo (memSet m a b) = true := by
  induction m generalizing lo with
  | nil => exact memWfFrom_consCell rfl hl
  | cons c m ih =>
    have hc := h
    simp only [memWfFrom, Bool.and_eq_true, decide_eq_true_eq] at h
    unfold memSet
    split
    · rename_i hlt
      refine memWfFrom_consCell ?_ hl
      simp only [memWfFrom, Bool.and_eq_true, decide_eq_true_eq]
      exact ⟨⟨by omega, h.1.2⟩, h.2⟩
    · split
      · rename_i heq
        subst heq
        exact memWfFrom_consCell h.2 hl
      · simp only [memWfFrom, Bool.and_eq_true, decide_eq_true_eq]
        exact ⟨h.1, ih h.2 (by omega)⟩

theorem wf_memSet (h : Memory.wf m = true) (a : Nat) (b : Byte) : Memory.wf (memSet m a b) = true :=
  memWfFrom_memSet h (Nat.zero_le a)

theorem wf_empty : Memory.wf [] = true := rfl

theorem memByte_below (h : memWfFrom lo m = true) (hx : x < lo) : memByte m x = unlistedByte := by
  induction m generalizing lo with
  | nil => rfl
  | cons c m ih =>
    simp only [memWfFrom, Bool.and_eq_true, decide_eq_true_eq] at h
    unfold memByte
    rw [if_neg (by omega)]
    exact ih h.2 (by omega)

theorem memByte_consCell (h : memWfFrom (a + 1) m = true) :
    memByte (consCell a b m) x = if x = a then b else memByte m x := by
  unfold consCell
  split
  · rename_i hb
    split
    · rename_i hx
      rw [hb]
      exact memByte_below h (by omega)
    · rfl
  · by_cases hx : x = a
    · simp [memByte, hx]
    · simp only [memByte, if_neg (Ne.symm hx), if_neg hx]

/-- What a byte reads as after a write. -/
theorem memByte_memSet_from (h : memWfFrom lo m = true) :
    memByte (memSet m a b) x = if x = a then b else memByte m x := by
  induction m generalizing lo with
  | nil => exact memByte_consCell rfl
  | cons c m ih =>
    have hc := h
    simp only [memWfFrom, Bool.and_eq_true, decide_eq_true_eq] at h
    unfold memSet
    split
    · rename_i hlt
      refine memByte_consCell ?_
      simp only [memWfFrom, Bool.and_eq_true, decide_eq_true_eq]
      exact ⟨⟨by omega, h.1.2⟩, h.2⟩
    · split
      · rename_i heq
        subst heq
        rw [memByte_consCell h.2]
        by_cases hx : x = c.1
        · simp [hx]
        · simp only [memByte, if_neg (Ne.symm hx), if_neg hx]
      · rename_i hne1 hne
        by_cases hx : c.1 = x
        · subst hx
          have : c.1 ≠ a := fun h => hne h.symm
          simp [memByte, this]
        · simp only [memByte, hx, if_false]
          exact ih h.2

theorem memByte_memSet (h : Memory.wf m = true) (a x : Nat) (b : Byte) :
    memByte (memSet m a b) x = if x = a then b else memByte m x :=
  memByte_memSet_from h

end Sys2Proof.Machine
end

