-- ==== Sys2Proof/Laws/PerInstr.lean ====
section
/-! SUPPORT. One family of statements about the commands as syntax: the word of a command matches the row of
its mnemonic, and its RSV bit is 0 (rules R94, R95). -/

namespace Sys2Proof.Laws.ReservedClear

/-- The command's word has RSV = 0, and is in the row of the opcode table that has its mnemonic. -/
def Statement (i : Instr) : Prop :=
  (encode i).getLsbD 9 = false ∧
    ∃ row ∈ opTable, row.mnemonic = i.mnemonic ∧ encode i &&& row.mask = row.mat

/-- The two commands with a byte operand, over every byte. -/
theorem byteRows (d : Byte) :
    ((encode (.start d)).getLsbD 9 = false ∧ encode (.start d) &&& 0xFF00 = 0x2000) ∧
      (encode (.writeByte d)).getLsbD 9 = false ∧ encode (.writeByte d) &&& 0xFF00 = 0x4000 := by
  revert d
  decide +kernel

theorem init : Statement .init :=
  ⟨by decide, ⟨"INIT", 0x1000, 0xFFFF⟩, by decide, rfl, by decide⟩

theorem start (a : Byte) : Statement (.start a) :=
  ⟨(byteRows a).1.1, ⟨"START", 0x2000, 0xFF00⟩, by decide, rfl, (byteRows a).1.2⟩

theorem stop : Statement .stop :=
  ⟨by decide, ⟨"STOP", 0x3000, 0xFFFF⟩, by decide, rfl, by decide⟩

theorem writeByte (d : Byte) : Statement (.writeByte d) :=
  ⟨(byteRows d).2.1, ⟨"WRITE_BYTE", 0x4000, 0xFF00⟩, by decide, rfl, (byteRows d).2.2⟩

theorem readByte (last : Bool) : Statement (.readByte last) :=
  ⟨by cases last <;> decide, ⟨"READ_BYTE", 0x5000, 0xFEFF⟩, by decide, rfl, by cases last <;> decide⟩

theorem isPresent : Statement .isPresent :=
  ⟨by decide, ⟨"IS_PRESENT", 0x6000, 0xFFFF⟩, by decide, rfl, by decide⟩

theorem driveSda (b : Bool) : Statement (.driveSda b) :=
  ⟨by cases b <;> decide, ⟨"DRIVE_SDA", 0x8000, 0xFEFF⟩, by decide, rfl, by cases b <;> decide⟩

theorem readSda : Statement .readSda :=
  ⟨by decide, ⟨"READ_SDA", 0x9000, 0xFFFF⟩, by decide, rfl, by decide⟩

theorem driveScl (b : Bool) : Statement (.driveScl b) :=
  ⟨by cases b <;> decide, ⟨"DRIVE_SCL", 0xA000, 0xFEFF⟩, by decide, rfl, by cases b <;> decide⟩

theorem setDir (p : Pin) (v : Bool) : Statement (.setDir p v) :=
  ⟨by cases p <;> cases v <;> decide, ⟨"SET_DIR", 0xC000, 0xF2FF⟩, by decide, rfl,
    by cases p <;> cases v <;> decide⟩

theorem setLevel (p : Pin) (v : Bool) : Statement (.setLevel p v) :=
  ⟨by cases p <;> cases v <;> decide, ⟨"SET_LEVEL", 0xD000, 0xF2FF⟩, by decide, rfl,
    by cases p <;> cases v <;> decide⟩

theorem getLevel (p : Pin) : Statement (.getLevel p) :=
  ⟨by cases p <;> decide, ⟨"GET_LEVEL", 0xE000, 0xF3FF⟩, by decide, rfl, by cases p <;> decide⟩

theorem pulse (p : Pin) : Statement (.pulse p) :=
  ⟨by cases p <;> decide, ⟨"PULSE", 0xF000, 0xF3FF⟩, by decide, rfl, by cases p <;> decide⟩

end Sys2Proof.Laws.ReservedClear
end

