-- ==== Sys2Proof/Laws/Sequences.lean ====
section
/-! SUPPORT. Each sequence of a command as the run of its event list, and what a run does: all its events
where no driven-high window meets a pull of the environment, else those up to the first such window (rules
R161 to R166, R244, R246, R247, R249). -/

namespace Sys2Proof.Machine

variable {s t u : State} {es es' h : List Event} {p : Pin} {b : Bool}

/-! The run of an event list. -/

/-- One event is performed, with its contention check; nothing happens after a model fault. -/
def perform (s : State) : Event → State
  | .wDir p v => wDir p v s
  | .wOut p v => wOut p v s
  | .sample p b => s.unlessFaulted (s.emit (.sample p b))
  | .delay n => s.unlessFaulted (s.emit (.delay n))
  | .cmdBegin w => s.unlessFaulted (s.emit (.cmdBegin w))
  | .cmdEnd r => s.unlessFaulted (s.emit (.cmdEnd r))

/-- The events are performed in order. -/
def State.run (s : State) (es : List Event) : State := es.foldl perform s

@[simp] theorem run_nil (s : State) : s.run [] = s := rfl

theorem run_append (s : State) (es es' : List Event) : s.run (es ++ es') = (s.run es).run es' :=
  List.foldl_append

theorem perform_faulted (hm : s.mf ≠ none) (e : Event) : perform s e = s := by
  cases e with
  | wDir p v => exact wDir_faulted hm
  | wOut p v => exact wOut_faulted hm
  | _ => simp [perform, State.unlessFaulted, Option.isSome_iff_ne_none.2 hm]

/-- After a model fault a run does nothing (rules R244, R249). -/
theorem run_faulted (hm : s.mf ≠ none) (es : List Event) : s.run es = s := by
  induction es with
  | nil => rfl
  | cons e es ih => rw [State.run, List.foldl_cons, perform_faulted hm]; exact ih

/-- One event happens, or happens and is the contention fault. -/
theorem perform_eq (hm : s.mf = none) (e : Event) :
    (¬ s.ShortAt [e] → perform s e = s.did [e]) ∧
      (s.ShortAt [e] → perform s e = s.stoppedBy [e] .sdaContention) := by
  cases e with
  | wDir p v =>
    rw [perform, wDir_eq hm]
    cases p
    case sda => by_cases h : s.ShortAfter [.wDir .sda v] <;> simp [State.ShortAt, isSdaWrite, h]
    all_goals simp [State.ShortAt, isSdaWrite]
  | wOut p v =>
    rw [perform, wOut_eq hm]
    cases p
    case sda => by_cases h : s.ShortAfter [.wOut .sda v] <;> simp [State.ShortAt, isSdaWrite, h]
    all_goals simp [State.ShortAt, isSdaWrite]
  | _ =>
    simp [perform, State.unlessFaulted, hm, State.ShortAt, isSdaWrite, State.did, State.emit,
      replay, writeOf]

theorem shortAt_did (e : Event) : (s.did es).ShortAt [e] ↔ s.ShortAt (es ++ [e]) := by
  unfold State.ShortAt State.ShortAfter
  rw [did_did]
  simp

theorem perform_params (s : State) (e : Event) :
    (perform s e).params = s.params ∧ (perform s e).cfgDelay = s.cfgDelay := by
  by_cases hm : s.mf = none
  · by_cases hs : s.ShortAt [e]
    · rw [(perform_eq hm e).2 hs]; exact ⟨rfl, rfl⟩
    · rw [(perform_eq hm e).1 hs]; exact ⟨rfl, rfl⟩
  · rw [perform_faulted hm]; exact ⟨rfl, rfl⟩

@[simp] theorem run_params (s : State) (es : List Event) : (s.run es).params = s.params := by
  induction es generalizing s with
  | nil => rfl
  | cons e es ih => exact (ih _).trans (perform_params s e).1

@[simp] theorem run_cfgDelay (s : State) (es : List Event) : (s.run es).cfgDelay = s.cfgDelay := by
  induction es generalizing s with
  | nil => rfl
  | cons e es ih => exact (ih _).trans (perform_params s e).2

/-- Where no window meets a pull, every event happens (rule R247). -/
theorem run_quiet (hm : s.mf = none) (hq : s.QuietAlong es) : s.run es = s.did es := by
  induction es using List.reverseRecOn with
  | nil => rw [run_nil, did_nil]
  | append_singleton es e ih =>
    rw [run_append, ih fun h hh => hq h (hh.trans (List.prefix_append _ _))]
    have hs : ¬ (s.did es).ShortAt [e] := fun hs => hq _ List.prefix_rfl (shortAt_did e |>.1 hs)
    rw [State.run, List.foldl_cons, (perform_eq (s := s.did es) hm e).1 hs, did_did]
    rfl

/-- Where one does, the run ends at the first (rules R244, R249). -/
theorem run_short (hm : s.mf = none) (hs : s.FirstShort es h) :
    s.run es = s.stoppedBy h .sdaContention := by
  obtain ⟨⟨tail, rfl⟩, h1, h2⟩ := hs
  rcases List.eq_nil_or_concat h with rfl | ⟨h0, e, rfl⟩
  · cases h1.1
  · have hq : s.QuietAlong h0 := fun h' hp hs => by
      have hl := hp.length_le
      rw [h2 h' (hp.trans (by simp)) hs] at hl
      simp at hl
    have e0 : s.run (h0 ++ [e]) = s.stoppedBy (h0 ++ [e]) .sdaContention := by
      rw [run_append, run_quiet hm hq, State.run, List.foldl_cons,
        (perform_eq (s := s.did h0) hm e).2 (shortAt_did e |>.2 (by simpa using h1))]
      simp [State.stoppedBy, State.did, replay_append]
    simp only [List.concat_eq_append] at *
    rw [run_append, e0, run_faulted (by simp [State.stoppedBy])]

/-- A run is quiet to its end or has a first short. -/
theorem quiet_or_short (s : State) (es : List Event) : s.QuietAlong es ∨ ∃ h, s.FirstShort es h := by
  induction es using List.reverseRecOn with
  | nil => exact .inl fun h hh hs => by rw [List.prefix_nil.1 hh] at hs; cases hs.1
  | append_singleton es e ih =>
    rcases ih with hq | ⟨h, h1, h2⟩
    · by_cases hs : s.ShortAt (es ++ [e])
      · refine .inr ⟨_, List.prefix_rfl, hs, fun h' hp hs' => ?_⟩
        rcases List.prefix_concat_iff.1 hp with rfl | hp
        · rfl
        · exact absurd hs' (hq h' hp)
      · refine .inl fun h' hp hs' => ?_
        rcases List.prefix_concat_iff.1 hp with rfl | hp
        · exact hs hs'
        · exact hq h' hp hs'
    · exact .inr ⟨h, h1.trans (List.prefix_append _ _), h2⟩

/-- A run that ended without a model fault did all its events (rule R244). -/
theorem run_unfaulted (hm : s.mf = none) (hr : (s.run es).mf = none) : s.run es = s.did es := by
  rcases quiet_or_short s es with hq | ⟨h, hs⟩
  · exact run_quiet hm hq
  · rw [run_short hm hs] at hr; cases hr

/-- Events that write no SDA bit never fault. -/
theorem run_noSda (hm : s.mf = none) (he : ∀ e ∈ es, isSdaWrite e = false) : s.run es = s.did es := by
  refine run_quiet hm fun h hp hs => ?_
  obtain ⟨e, hl, hw⟩ := Option.any_eq_true _ _ |>.1 hs.1
  rw [he e (hp.subset (List.mem_of_getLast? hl))] at hw
  cases hw

/-- After a model fault it does not matter what a sample would have read. -/
theorem run_sample {b' : Bool} (hb : (s.run es).mf = none → b = b') :
    s.run (es ++ .sample p b :: es') = s.run (es ++ .sample p b' :: es') := by
  by_cases hr : (s.run es).mf = none
  · rw [hb hr]
  · rw [run_append, run_append, run_faulted hr, run_faulted hr]

/-! The sequences. -/

theorem sample_run (s : State) (es : List Event) (p : Pin) :
    (sample p (s.run es)).2 = s.run (es ++ [.sample p ((s.run es).level p)]) := by
  rw [run_append]; rfl

theorem delay_run (s : State) (es : List Event) (n : Nat) :
    delay n (s.run es) = s.run (es ++ [.delay n]) := by
  rw [run_append]; rfl

/-- drive_scl(b) (rule R140). -/
theorem driveScl_run (s : State) (es : List Event) (b : Bool) :
    driveSclSeq b (s.run es) = s.run (es ++ sclEvents s.cfgDelay b) := by
  rw [run_append, driveSclSeq, run_cfgDelay, sclEvents]
  split <;> rfl

/-- drive_sda(b) (rule R141). -/
theorem driveSda_run (s : State) (es : List Event) (b : Bool) :
    driveSdaSeq b (s.run es) = s.run (es ++ sdaEvents b) := by
  rw [run_append]; rfl

/-- pulse(p) (rule R123). -/
theorem pulse_run (s : State) (es : List Event) (p : Pin) :
    pulseSeq p (s.run es) = s.run (es ++ pulseEvents s.params p) := by
  rw [run_append, pulseSeq, run_params, pulseEvents]
  split <;> rfl

/-- stop_seq (rule R163). -/
theorem stop_run (s : State) (es : List Event) :
    stopSeq (s.run es) = s.run (es ++ stopEvents s.cfgDelay) := by
  rw [stopSeq, driveSda_run, driveScl_run, driveSda_run]
  simp only [stopEvents, List.append_assoc]

/-- The loop of write_byte_seq (rule R164). -/
theorem writeBits_run (s : State) (es : List Event) (d : Byte) (is : List Nat) :
    writeBits d is (s.run es) =
      s.run (es ++ is.flatMap fun i => writeBitEvents s.cfgDelay (d.getLsbD i)) := by
  induction is generalizing es with
  | nil => rw [List.flatMap_nil, List.append_nil]; rfl
  | cons i is ih =>
    rw [writeBits, writeBit, driveSda_run, driveScl_run, driveScl_run, ih]
    simp only [writeBitEvents, List.flatMap_cons, List.append_assoc, bitOf]

/-- write_byte_seq up to its sample (rule R164). -/
theorem writeHead_run (s : State) (es : List Event) (d : Byte) :
    writeByteHead d (s.run es) = s.run (es ++ writeHeadEvents s.cfgDelay d) := by
  rw [writeByteHead, driveScl_run, writeBits_run, driveSda_run, driveScl_run]
  simp only [writeHeadEvents, msbFirst, List.append_assoc]

/-- Where SDA is released, its level is the environment's answer (rules R48, R52). -/
theorem level_released (hd : s.dirBit .sda = false) : s.level .sda = !s.pullsSda := by
  simp [State.level, driveOf_eq, hd]

/-- A wait and a write of SCL leave SDA's bits alone. -/
theorem bitAfter_scl (r : Reg) (b : Bool) (d : Word) (v : Bool) :
    bitAfter r .sda b (sclEvents d v) = b := by
  unfold sclEvents
  split <;> simp [bitAfter]

theorem bitAfter_sclEvents (r : Reg) (q : Pin) (b : Bool) (d : Word) (v : Bool) :
    bitAfter r q b (sclEvents d v) = if r = .out ∧ Pin.scl = q then v else b := by
  unfold sclEvents
  split <;> simp [bitAfter]

theorem bitAfter_sda_dir (b v : Bool) : bitAfter .dir .sda b (sdaEvents v) = !v := by
  simp [sdaEvents, bitAfter]

theorem bitAfter_sda_out (b v : Bool) : bitAfter .out .sda b (sdaEvents v) = v := by
  simp [sdaEvents, bitAfter]

/-- SDA is released when the acknowledgment is sampled (rules R164, R172). -/
theorem writeHead_level (d : Byte) (h : s.Ready) :
    (s.did (writeHeadEvents s.cfgDelay d)).level .sda =
      !(s.did (writeHeadEvents s.cfgDelay d)).pullsSda := by
  apply level_released
  rw [dirBit_did h present_sda, writeHeadEvents, bitAfter_append, bitAfter_append, bitAfter_scl,
    bitAfter_sda_dir]
  rfl

/-- write_byte_seq: its acknowledgment is that the environment pulled at the 9th clock (rules R164, R172); in
a run that a model fault ended it is of no use. -/
theorem writeByte_run (hr : s.Ready) (es : List Event) (d : Byte) :
    let head := es ++ writeHeadEvents s.cfgDelay d
    let ack := (s.did head).pullsSda
    (writeByteSeq d (s.run es)).2 = s.run (es ++ writeByteEvents s.cfgDelay d (!ack)) ∧
      ((s.run head).mf = none → (writeByteSeq d (s.run es)).1 = ack) := by
  intro head ack
  have hl : (s.run head).mf = none → (s.run head).level .sda = !ack := fun hm => by
    rw [run_unfaulted hr.2.1 hm]
    have := writeHead_level d (ready_after hr es)
    simpa only [did_did, did_cfgDelay] using this
  have e : readSdaSeq (writeByteHead d (s.run es)) = sample .sda (s.run head) := by
    rw [readSdaSeq, writeHead_run]
  refine ⟨?_, fun hm => ?_⟩
  · rw [writeByteSeq, e]
    simp only
    rw [sample_run, driveScl_run, List.append_assoc, List.singleton_append, run_sample hl]
    simp only [head, writeByteEvents, List.append_assoc, List.cons_append, List.nil_append]
  · rw [writeByteSeq, e]
    simp only [sample, ackOf]
    rw [hl hm, Bool.not_not]

/-- START (rule R162). -/
theorem start_run (hr : s.Ready) (a : Byte) :
    let head := startHeadEvents s.params s.cfgDelay ++ writeHeadEvents s.cfgDelay a
    let ack := (s.did head).pullsSda
    (startSeq a s).2 = s.run (startEvents s.params s.cfgDelay a (!ack)) ∧
      ((s.run head).mf = none → (startSeq a s).1 = ack) := by
  have e : driveSdaSeq false (driveSclSeq true (delay s.params.startSettleUs (pulseSeq .trigger s))) =
      s.run (startHeadEvents s.params s.cfgDelay) := by
    rw [← run_nil s, pulse_run, delay_run, driveScl_run, driveSda_run]
    simp only [run_nil, startHeadEvents, List.nil_append]
  rw [startSeq, e]
  exact writeByte_run hr _ a

/-- IS_PRESENT (rule R166). -/
theorem isPresent_run (hr : s.Ready) :
    let head := startHeadEvents s.params s.cfgDelay ++ writeHeadEvents s.cfgDelay s.configuredAddr
    let ack := (s.did head).pullsSda
    (isPresentSeq s).2 = s.run (isPresentEvents s.params s.cfgDelay s.configuredAddr (!ack)) ∧
      ((s.run head).mf = none → (isPresentSeq s).1 = ack) := by
  obtain ⟨e, ea⟩ := start_run hr s.configuredAddr
  refine ⟨?_, ea⟩
  rw [isPresentSeq, show s.addrByte = s.configuredAddr from rfl]
  simp only
  rw [e, stop_run]
  rfl

/-- drive_scl(b) after events (rule R140). -/
theorem driveScl_after (hm : s.mf = none) (es : List Event) (b : Bool) :
    driveSclSeq b (s.did es) = s.did (es ++ sclEvents s.cfgDelay b) := by
  rw [← did_did]
  exact driveScl_did (s := s.did es) hm b

/-- INIT's part for an optional pin (rule R161). -/
theorem initPin_did (hm : s.mf = none) {p : Pin} (hp : p ≠ .sda) :
    initPin p s = s.did (initPinEvents s.params p) := by
  unfold initPin initPinEvents
  split
  · have hm' : (s.did [.wOut p true]).mf = none := hm
    rw [wOut_other hm hp, wDir_other hm' hp, did_did]
    rfl
  · rw [did_nil]

theorem initPin_after (hm : s.mf = none) {p : Pin} (hp : p ≠ .sda) (es : List Event) :
    initPin p (s.did es) = s.did (es ++ initPinEvents s.params p) := by
  rw [← did_did]
  exact initPin_did (s := s.did es) hm hp

/-- INIT has no driven-high window (rule R161). -/
theorem init_did (h : s.Ready) : initSeq s = s.did (initEvents s.params s.cfgDelay) := by
  have hm := h.2.1
  have e1 := driveSda_release h
  have e2 : wDir .scl true (s.did (sdaEvents true)) = (s.did (sdaEvents true)).did [.wDir .scl true] :=
    wDir_other hm (by simp)
  rw [initSeq, e1, e2, did_did, driveScl_after hm, initPin_after hm (by simp),
    initPin_after hm (by simp)]
  rfl

/-- One turn of READ_BYTE's loop (rule R165). -/
theorem readBit_did (h : s.Ready) :
    driveSclSeq false (readSdaSeq (driveSclSeq true s)).2 =
        s.did (readBitEvents s.cfgDelay ((s.did (sclEvents s.cfgDelay true)).level .sda)) ∧
      (readSdaSeq (driveSclSeq true s)).1 = (s.did (sclEvents s.cfgDelay true)).level .sda := by
  rw [driveScl_did h.2.1, readSdaSeq, sample_eq (ready_after h _).2.1]
  simp only
  rw [did_did, driveScl_after h.2.1]
  exact ⟨rfl, trivial⟩

/-- The byte the loop assembles: each sample into its bit (rules R165, R173). -/
def assembled : List Nat → List Bool → Byte → Byte
  | i :: is, b :: bs, r => assembled is bs (setBitIf r i b)
  | _, _, r => r

/-- READ_BYTE's loop: it takes one sample a bit, each the level after the events before it (rule R165). -/
theorem readBits_did (is : List Nat) (r : Byte) (h : s.Ready) :
    ∃ bs : List Bool, bs.length = is.length ∧
      (∀ j, j < is.length →
        bs[j]? = some ((s.did (beforeSample s.cfgDelay (bs.take j))).level .sda)) ∧
      readBits is r s = (assembled is bs r, s.did (bs.flatMap (readBitEvents s.cfgDelay))) := by
  induction is generalizing r s with
  | nil => exact ⟨[], rfl, by simp, by simp only [List.flatMap_nil, did_nil]; rfl⟩
  | cons i is ih =>
    obtain ⟨e1, e2⟩ := readBit_did h
    generalize hb : (s.did (sclEvents s.cfgDelay true)).level .sda = b at e1 e2
    obtain ⟨bs, hl, hs, he⟩ := ih (setBitIf r i b) (ready_after h (readBitEvents s.cfgDelay b))
    refine ⟨b :: bs, by simp [hl], ?_, ?_⟩
    · rintro (_ | j) hj
      · simp [beforeSample, hb]
      · have := hs j (by simpa using hj)
        rw [List.getElem?_cons_succ, this, did_did]
        simp only [did_cfgDelay, List.take_succ_cons, beforeSample, List.flatMap_cons, List.append_assoc]
    · rw [readBits, e1, e2, he, did_did]
      rfl

theorem assembled_byte {bs : List Bool} (h : bs.length = 8) :
    assembled msbFirst bs 0 = byteOfSamples bs := by
  obtain ⟨b1, b2, b3, b4, b5, b6, b7, b8, rfl⟩ : ∃ b1 b2 b3 b4 b5 b6 b7 b8,
      bs = [b1, b2, b3, b4, b5, b6, b7, b8] := by
    match bs, h with
    | [b1, b2, b3, b4, b5, b6, b7, b8], _ => exact ⟨b1, b2, b3, b4, b5, b6, b7, b8, rfl⟩
  revert b1 b2 b3 b4 b5 b6 b7 b8
  decide +kernel

/-- The samples of the loop are the first n samples of the state (rule R165). -/
theorem readSamples_eq {bs : List Bool} (n : Nat) (hn : n ≤ bs.length)
    (hs : ∀ j, j < bs.length →
      bs[j]? = some ((s.did (beforeSample s.cfgDelay (bs.take j))).level .sda)) :
    s.readSamples n = bs.take n := by
  induction n with
  | zero => rfl
  | succ n ih =>
    rw [State.readSamples, ih (by omega), List.take_add_one, hs n (by omega)]
    rfl

/-- READ_BYTE (rule R165). -/
theorem readByte_run (hr : s.Ready) (last : Bool) :
    readByteSeq last s =
      (byteOfSamples (s.readSamples 8), s.run (readByteEvents s.cfgDelay (s.readSamples 8) last)) := by
  obtain ⟨bs, hl, hs, he⟩ := readBits_did msbFirst 0 hr
  have hl8 : bs.length = 8 := hl
  have hb : s.readSamples 8 = bs := by
    rw [readSamples_eq 8 hl8.ge (by rw [hl]; exact hs), ← hl8, List.take_length]
  have hq : s.did (bs.flatMap (readBitEvents s.cfgDelay)) = s.run (bs.flatMap (readBitEvents s.cfgDelay)) := by
    refine (run_noSda hr.2.1 fun e h => ?_).symm
    obtain ⟨b, -, h⟩ := List.mem_flatMap.1 h
    unfold readBitEvents sclEvents at h
    split at h <;> simp at h <;> aesop
  rw [hb, readByteSeq, he, assembled_byte hl8]
  simp only
  rw [hq, driveSda_run, driveScl_run, driveScl_run]
  cases last
  · rw [if_neg (by simp), driveSda_run]
    simp [readByteEvents]
  · rw [if_pos rfl, stop_run]
    simp [readByteEvents]

/-! What exec does. -/

/-- The end of a run: the whole command, or the first short and nothing after it (rules R97, R244). -/
theorem run_finish (hm : s.mf = none) (es : List Event) (r : Reply) :
    (s.QuietAlong es → (s.run es).finish r = s.completed es r) ∧
      ∀ h, s.FirstShort es h → (s.run es).finish r = s.stoppedBy h .sdaContention := by
  refine ⟨fun hq => ?_, fun h hs => ?_⟩
  · rw [run_quiet hm hq, finish_did hm]
  · rw [run_short hm hs, finish_faulted (by simp [State.stoppedBy])]

/-- A reply that is right where no model fault ended the run ends it alike. -/
theorem finish_reply {m : State} {r r' : Reply} (h : m.mf = none → r = r') : m.finish r = m.finish r' := by
  by_cases hm : m.mf = none
  · rw [h hm]
  · rw [finish_faulted hm, finish_faulted hm]

theorem next_finish {m : State} {a a' : Bool} (h : m.mf = none → a = a') :
    (.next (m.finish (.ofFlag a)) : Answer) = .next (m.finish ⟨a', 0⟩) :=
  congrArg Host.Outcome.next (finish_reply fun hm => by rw [h hm]; rfl)

/-- A run that got to its end was not faulted at a prefix. -/
theorem run_prefix_unfaulted (hp : es <+: es') (hr : (s.run es').mf = none) : (s.run es).mf = none := by
  obtain ⟨tail, rfl⟩ := hp
  rw [run_append] at hr
  by_contra hx
  rw [run_faulted hx] at hr
  exact hx hr

theorem writeHead_prefix (d : Word) (x : Byte) (b : Bool) :
    writeHeadEvents d x <+: writeByteEvents d x b := by
  simp only [writeByteEvents, List.append_assoc]
  exact List.prefix_append _ _

theorem startHead_prefix (c : Params) (d : Word) (a : Byte) (b : Bool) :
    startHeadEvents c d ++ writeHeadEvents d a <+: startEvents c d a b :=
  (List.prefix_append_right_inj _).2 (writeHead_prefix d a b)

theorem isPresentHead_prefix (c : Params) (d : Word) (a : Byte) (b : Bool) :
    startHeadEvents c d ++ writeHeadEvents d a <+: isPresentEvents c d a b :=
  (startHead_prefix c d a b).trans (List.prefix_append _ _)

/-- START, in any environment (rule R162). -/
theorem exec_start_run (hr : s.Ready) (hd : s.delaySet = true) (a : Byte) :
    let ack := (s.did (startHeadEvents s.params s.cfgDelay ++ writeHeadEvents s.cfgDelay a)).pullsSda
    exec (.start a) s = .next ((s.run (startEvents s.params s.cfgDelay a (!ack))).finish ⟨ack, 0⟩) := by
  intro ack
  obtain ⟨e, ea⟩ := start_run hr a
  rw [exec, execStart, gate_of_ready hr, State.needDelay, if_pos hd, e]
  exact next_finish fun hm => ea (run_prefix_unfaulted (startHead_prefix ..) hm)

/-- WRITE_BYTE, in any environment (rule R164). -/
theorem exec_writeByte_run (hr : s.Ready) (hd : s.delaySet = true) (d : Byte) :
    let ack := (s.did (writeHeadEvents s.cfgDelay d)).pullsSda
    exec (.writeByte d) s = .next ((s.run (writeByteEvents s.cfgDelay d (!ack))).finish ⟨ack, 0⟩) := by
  intro ack
  obtain ⟨e, ea⟩ := writeByte_run hr [] d
  simp only [List.nil_append, run_nil] at e ea
  rw [exec, execWriteByte, gate_of_ready hr, State.needDelay, if_pos hd, e]
  exact next_finish fun hm => ea (run_prefix_unfaulted (writeHead_prefix ..) hm)

/-- READ_BYTE, in any environment (rule R165). -/
theorem exec_readByte_run (hr : s.Ready) (hd : s.delaySet = true) (last : Bool) :
    exec (.readByte last) s =
      .next ((s.run (readByteEvents s.cfgDelay (s.readSamples 8) last)).finish
        ⟨false, byteOfSamples (s.readSamples 8)⟩) := by
  rw [exec, execReadByte, gate_of_ready hr, State.needDelay, if_pos hd, readByte_run hr]
  rfl

/-- IS_PRESENT, in any environment (rule R166). -/
theorem exec_isPresent_run (hr : s.Ready) (hd : s.delaySet = true) (ha : s.addrSet = true) :
    let ack := (s.did (startHeadEvents s.params s.cfgDelay
      ++ writeHeadEvents s.cfgDelay s.configuredAddr)).pullsSda
    exec .isPresent s =
      .next ((s.run (isPresentEvents s.params s.cfgDelay s.configuredAddr (!ack))).finish ⟨ack, 0⟩) := by
  intro ack
  obtain ⟨e, ea⟩ := isPresent_run hr
  rw [exec, execIsPresent, gate_of_ready hr, State.needDelay, if_pos hd, State.needAddr, if_pos ha, e]
  exact next_finish fun hm => ea (run_prefix_unfaulted (isPresentHead_prefix ..) hm)

/-- STOP, in any environment (rule R163). -/
theorem exec_stop_run (hr : s.Ready) (hd : s.delaySet = true) :
    exec .stop s = .next ((s.run (stopEvents s.cfgDelay)).finish ⟨false, 0⟩) := by
  have e := stop_run s []
  rw [run_nil, List.nil_append] at e
  rw [exec, execStop, gate_of_ready hr, State.needDelay, if_pos hd, e]
  rfl

/-- The events of a command that ended without a model fault, its samples left open (rules R124 to R127,
R144 to R146, R161 to R166). -/
def CommandEvents (s : State) (es : List Event) : Instr → Prop
  | .init => es = initEvents s.params s.cfgDelay
  | .start a => ∃ b, es = startEvents s.params s.cfgDelay a b
  | .stop => es = stopEvents s.cfgDelay
  | .writeByte d => ∃ b, es = writeByteEvents s.cfgDelay d b
  | .readByte last => ∃ bs : List Bool, bs.length = 8 ∧ es = readByteEvents s.cfgDelay bs last
  | .isPresent => ∃ b, es = isPresentEvents s.params s.cfgDelay s.configuredAddr b
  | .driveSda b => es = sdaEvents b
  | .readSda => ∃ b, es = [.sample .sda b]
  | .driveScl b => es = sclEvents s.cfgDelay b
  | .setDir p v => es = [.wDir p v] ∨ es = []
  | .setLevel p v => es = [.wOut p v] ∨ es = []
  | .getLevel p => (∃ b, es = [.sample p b]) ∨ es = []
  | .pulse p => es = pulseEvents s.params p

/-- A command that ended without a model fault: its events, GPIO from their writes, and its RESULT as that
of its CmdEnd (rules R97, R98, R241). -/
structure Done (s t : State) (i : Instr) : Prop where
  params : t.params = s.params
  events : ∃ es, CommandEvents s es i ∧ t.trace = s.trace ++ es ++ [.cmdEnd t.result] ∧
    t.gpio = replay s.params s.gpio es

/-- A run that ended without a model fault did its events and wrote RESULT (rules R97, R98, R244). -/
theorem done_run {r : Reply} {i : Instr} (hr : s.Ready) (he : CommandEvents s es i)
    (ht : t = (s.run es).finish r) (hm : t.mf = none) : Done s t i := by
  have hu : (s.run es).mf = none := by
    by_contra hx
    rw [ht, finish_faulted hx] at hm
    exact hx hm
  rw [run_unfaulted hr.2.1 hu, finish_did hr.2.1] at ht
  subst ht
  exact ⟨rfl, es, he, rfl, rfl⟩

theorem needDelay_unfaulted {k : Answer} (hk : s.needDelay k = .next t) (hm : t.mf = none) :
    s.delaySet = true ∧ k = .next t := by
  unfold State.needDelay at hk
  split at hk
  · exact ⟨by assumption, hk⟩
  · cases hk; cases hm

theorem needAddr_unfaulted {k : Answer} (hk : s.needAddr k = .next t) (hm : t.mf = none) :
    s.addrSet = true ∧ k = .next t := by
  unfold State.needAddr at hk
  split at hk
  · exact ⟨by assumption, hk⟩
  · cases hk; cases hm

theorem done_needPin {p : Pin} {k : Answer} {i : Instr} (h0 : CommandEvents s [] i)
    (hk : k = .next t → Done s t i) (h : s.needPin p k = .next t) : Done s t i := by
  unfold State.needPin at h
  split at h
  · exact hk h
  · cases h
    exact ⟨rfl, [], h0, by simp [State.commandError, State.setResult, State.emit], rfl⟩

theorem next_inj {a b : State} (h : (.next a : Answer) = .next b) : b = a := by cases h; rfl

/-- What exec did where it ended without a model fault, in any environment. -/
theorem exec_done {i : Instr} (hr : s.Ready) (he : exec i s = .next t) (hm : t.mf = none) :
    Done s t i := by
  cases i with
  | init =>
    have e := (needDelay_unfaulted (gate_next he).2.2.2 hm).2
    rw [init_did hr, finish_did hr.2.1] at e
    cases e
    exact ⟨rfl, _, rfl, rfl, rfl⟩
  | start a =>
    have hd := (needDelay_unfaulted (gate_next he).2.2.2 hm).1
    rw [exec_start_run hr hd] at he
    exact done_run hr ⟨_, rfl⟩ (next_inj he) hm
  | stop =>
    have hd := (needDelay_unfaulted (gate_next he).2.2.2 hm).1
    rw [exec_stop_run hr hd] at he
    exact done_run hr rfl (next_inj he) hm
  | writeByte d =>
    have hd := (needDelay_unfaulted (gate_next he).2.2.2 hm).1
    rw [exec_writeByte_run hr hd] at he
    exact done_run hr ⟨_, rfl⟩ (next_inj he) hm
  | readByte last =>
    have hd := (needDelay_unfaulted (gate_next he).2.2.2 hm).1
    rw [exec_readByte_run hr hd] at he
    exact done_run hr ⟨_, rfl, rfl⟩ (next_inj he) hm
  | isPresent =>
    obtain ⟨hd, e⟩ := needDelay_unfaulted (gate_next he).2.2.2 hm
    rw [exec_isPresent_run hr hd (needAddr_unfaulted e hm).1] at he
    exact done_run hr ⟨_, rfl⟩ (next_inj he) hm
  | driveSda b => exact done_run (es := sdaEvents b) hr rfl (next_inj (gate_next he).2.2.2) hm
  | readSda => exact done_run hr ⟨s.level .sda, rfl⟩ (next_inj (gate_next he).2.2.2) hm
  | driveScl b =>
    have e := (needDelay_unfaulted (gate_next he).2.2.2 hm).2
    rw [driveScl_did hr.2.1, finish_did hr.2.1] at e
    cases e
    exact ⟨rfl, _, rfl, rfl, rfl⟩
  | setDir p v =>
    exact done_needPin (.inr rfl) (fun e => done_run hr (.inl rfl) (next_inj e) hm) (gate_next he).2.2.2
  | setLevel p v =>
    exact done_needPin (.inr rfl) (fun e => done_run hr (.inl rfl) (next_inj e) hm) (gate_next he).2.2.2
  | getLevel p =>
    exact done_needPin (.inr rfl) (fun e => done_run hr (.inl ⟨s.level p, rfl⟩) (next_inj e) hm)
      (gate_next he).2.2.2
  | pulse p =>
    have e := pulse_run s [] p
    rw [run_nil, List.nil_append] at e
    have e' := (gate_next he).2.2.2
    rw [e] at e'
    exact done_run hr rfl (next_inj e') hm

end Sys2Proof.Machine
end

