-- ==== Sys2Proof/Laws/Step.lean ====
section
/-! SUPPORT. What a step can do, said once: it appends events, GPIO is what their writes left, RESULT is that
of the last CmdEnd, and it changes a configuration register only where it is the host's write of one. -/

namespace Sys2Proof.Machine

variable {s t u : State} {i : Instr}

theorem lastResult_append (r : Word) (es es' : List Event) :
    lastResult r (es ++ es') = lastResult (lastResult r es) es' := by
  induction es generalizing r with
  | nil => rfl
  | cons e es ih => cases e <;> exact ih _

theorem lastResult_micro (r : Word) {es : List Event} (he : ∀ e ∈ es, isMicro e = true) :
    lastResult r es = r := by
  induction es with
  | nil => rfl
  | cons e es ih =>
    have h1 := he e (by simp)
    have h2 := ih fun e h => he e (List.mem_cons_of_mem _ h)
    cases e <;> first | exact h2 | cases h1

theorem resultOk_resultWord (r : Reply) : resultOk (resultWord r) = true := by
  obtain ⟨f, d⟩ := r
  revert d
  cases f <;> decide +kernel

theorem resultOk_errorWord (e : CommandError) : resultOk (errorWord e) = true := by
  cases e <;> decide

/-- What every step but a host write of a configuration register does. -/
structure Grew (s t : State) : Prop where
  params : t.params = s.params
  env : t.env = s.env
  cfgAddr : t.cfgAddr = s.cfgAddr
  cfgDelay : t.cfgDelay = s.cfgDelay
  addrSet : t.addrSet = s.addrSet
  delaySet : t.delaySet = s.delaySet
  wf : Memory.wf s.host.mem = true → Memory.wf t.host.mem = true
  resultOk : resultOk s.result = true → resultOk t.result = true
  events : ∃ es : List Event, t.trace = s.trace ++ es ∧ t.gpio = replay s.params s.gpio es ∧
    t.result = lastResult s.result es

/-- Only the marks and the host, but for its memory's form, differ. -/
theorem grew_of_same (hp : t.params = s.params) (he : t.env = s.env) (ha : t.cfgAddr = s.cfgAddr)
    (hd : t.cfgDelay = s.cfgDelay) (has : t.addrSet = s.addrSet) (hds : t.delaySet = s.delaySet)
    (hw : Memory.wf s.host.mem = true → Memory.wf t.host.mem = true) (hr : t.result = s.result)
    (ht : t.trace = s.trace) (hg : t.gpio = s.gpio) : Grew s t :=
  ⟨hp, he, ha, hd, has, hds, hw, fun h => hr ▸ h, [], by simp [ht], hg, hr⟩

theorem grew_refl (s : State) : Grew s s := grew_of_same rfl rfl rfl rfl rfl rfl id rfl rfl rfl

theorem grew_trans (h : Grew s t) (h' : Grew t u) : Grew s u := by
  obtain ⟨a1, a2, a3, a4, a5, a6, a7, a8, es, a9, a10, a11⟩ := h
  obtain ⟨b1, b2, b3, b4, b5, b6, b7, b8, es', b9, b10, b11⟩ := h'
  exact ⟨b1.trans a1, b2.trans a2, b3.trans a3, b4.trans a4, b5.trans a5, b6.trans a6, b7 ∘ a7, b8 ∘ a8,
    es ++ es', by rw [b9, a9, List.append_assoc], by rw [b10, a1, a10, replay_append],
    by rw [b11, a11, lastResult_append]⟩

theorem grew_commandError (s : State) (e : CommandError) : Grew s (s.commandError e) :=
  ⟨rfl, rfl, rfl, rfl, rfl, rfl, id, fun _ => resultOk_errorWord e, [.cmdEnd (errorWord e)], rfl, rfl, rfl⟩

theorem grew_raise (s : State) (m : ModelFault) : Grew s (s.raise m) :=
  grew_of_same rfl rfl rfl rfl rfl rfl id rfl rfl rfl

theorem grew_refuse (s : State) : Grew s s.refuse := grew_of_same rfl rfl rfl rfl rfl rfl id rfl rfl rfl

/-- A change of the host that keeps its memory. -/
theorem grew_setHost (s : State) {h : HostSide} (hm : h.mem = s.host.mem) : Grew s (s.setHost h) :=
  grew_of_same rfl rfl rfl rfl rfl rfl (fun hw => by simpa [State.setHost, hm] using hw) rfl rfl rfl

theorem grew_setTask (s : State) (k : Task) : Grew s (s.setTask k) := grew_setHost s rfl

theorem grew_storeByte (s : State) (a : Nat) (b : Byte) : Grew s (s.storeByte a b) :=
  grew_of_same rfl rfl rfl rfl rfl rfl (fun hw => wf_memSet hw a b) rfl rfl rfl

theorem grew_moved (h : Moved s t) : Grew s t := by
  obtain ⟨a1, a2, a3, a4, a5, a6, -, a8, a9, -, -, es, he, ht, hg⟩ := h
  exact ⟨a1, a8, a3, a4, a5, a6, by rw [a9]; exact id, by rw [a2]; exact id, es, ht, hg,
    by rw [a2, lastResult_micro _ he]⟩

theorem grew_finish (s : State) (r : Reply) : Grew s (s.finish r) := by
  unfold State.finish State.unlessFaulted
  split
  · exact grew_refl s
  · exact ⟨rfl, rfl, rfl, rfl, rfl, rfl, id, fun _ => resultOk_resultWord r, [.cmdEnd (resultWord r)],
      rfl, rfl, rfl⟩

theorem grew_exec (h : exec i s = .next t) : Grew s t := by
  obtain ⟨-, -, -, h⟩ := exec_next h
  cases h with
  | finished m r hm => exact grew_trans (grew_moved hm) (grew_finish m r)
  | unconfigured => exact grew_raise s _
  | absentPin => exact grew_commandError s _

theorem grew_runCommand {w : Word} (h : runCommand w s = .next t) : Grew s t := by
  have h := (gate_next h).2.2.2
  have e : Grew s (s.emit (.cmdBegin w)) :=
    ⟨rfl, rfl, rfl, rfl, rfl, rfl, id, id, [.cmdBegin w], rfl, rfl, rfl⟩
  simp only at h
  split at h
  · exact grew_trans e (grew_exec h)
  · cases h; exact grew_trans e (grew_commandError _ _)

theorem grew_give (s : State) (v : Word) : Grew s (s.give v) := grew_setHost s rfl

theorem grew_hostRead {off width : Nat} (h : hostRead off width s = .next t) : Grew s t := by
  have h := (gate_next h).2.2.2
  split at h
  · cases h; exact grew_give _ _
  · cases h; exact grew_give _ _
  · unfold State.needAddr at h
    split at h <;> cases h
    · exact grew_give _ _
    · exact grew_raise _ _
  · unfold State.needDelay at h
    split at h <;> cases h
    · exact grew_give _ _
    · exact grew_raise _ _
  · cases h; exact grew_give _ _
  · cases h; exact grew_refuse _

/-- What a host write can do: write a configuration register, or else what Grew says. -/
theorem hostWrite_cases {off width : Nat} {v : Word} (h : hostWrite off width v s = .next t) :
    Grew s t ∨ (off = 0x4 ∧ width = 16 ∧ t = s.setCfgAddr v) ∨
      (off = 0x6 ∧ width = 16 ∧ t = s.setCfgDelay v) := by
  have h := (gate_next h).2.2.2
  unfold hostReg at h
  split_ifs at h with hw
  · split at h
    · exact .inl (grew_runCommand h)
    · cases h; exact .inl (grew_refl s)
    · cases h
      rename_i hr
      refine .inr (.inl ⟨?_, hw, rfl⟩)
      split at hr <;> first | rfl | cases hr
    · cases h
      rename_i hr
      refine .inr (.inr ⟨?_, hw, rfl⟩)
      split at hr <;> first | rfl | cases hr
    · cases h; exact .inl (grew_refl s)
    · cases h; exact .inl (grew_refuse s)
  · cases h; exact .inl (grew_refuse s)

theorem grew_beginTransfer (s : State) (op : Xfer) (page offset buf count : Nat) (parent : Option Flash) :
    Grew s (s.beginTransfer op page offset buf count parent) := by
  unfold State.beginTransfer
  split
  · exact grew_refuse s
  · split
    · exact grew_raise s _
    · exact grew_setTask s _

theorem grew_beginFlash (s : State) (op : Xfer) (addr buf bytes : Nat) :
    Grew s (s.beginFlash op addr buf bytes) := by
  unfold State.beginFlash
  split
  · exact grew_setTask s _
  · exact grew_refuse s

theorem grew_iterateTurn (s : State) (f : Flash) : Grew s (s.iterateTurn f) := by
  unfold State.iterateTurn
  split
  · exact grew_beginTransfer ..
  · exact grew_setHost s rfl

theorem grew_sequenceReturn (s : State) (job : Job) (n : Nat) (parent : Option Flash) :
    Grew s (s.sequenceReturn job n parent) := by
  cases parent
  · exact grew_setHost s rfl
  · exact grew_setTask s _

theorem grew_toData (s : State) (job : Job) (j : Nat) (parent : Option Flash) :
    Grew s (s.toData job j parent) := by
  unfold State.toData
  split
  · exact grew_setTask s _
  · split
    · exact grew_sequenceReturn ..
    · exact grew_setTask s _

theorem grew_phaseDone (s : State) (job : Job) (parent : Option Flash) (r : Word) (ph : Phase) :
    Grew s (s.phaseDone job parent r ph) := by
  cases ph <;> simp only [State.phaseDone] <;> (try split) <;>
    first
      | exact grew_setTask s _
      | exact grew_toData ..
      | exact grew_sequenceReturn ..
      | exact grew_trans (grew_storeByte s _ _) (grew_toData ..)

/-- What cmd(C) can do (rule R200): its command ended in a model fault, or its RESULT was read and the
sequence went on. -/
theorem hostCommand_cases {k : Word → State → State} (h : hostCommand i s k = .next t) :
    ∃ u, hostWrite 0x0 16 (encode i) s = .next u ∧
      ((u.mf ≠ none ∧ t = u) ∨
        (u.mf = none ∧ ∃ u', hostRead 0x2 16 u = .next u' ∧ t = k u.result u')) := by
  unfold hostCommand at h
  split at h
  · rename_i u hu
    refine ⟨u, hu, ?_⟩
    split at h
    · rename_i hm
      cases h
      exact .inl ⟨by simpa [Option.isSome_iff_ne_none] using hm, rfl⟩
    · rename_i hm
      refine .inr ⟨by simpa using hm, ?_⟩
      split at h
      · cases h; exact ⟨_, by assumption, rfl⟩
      · cases h
      · cases h
  · cases h
  · cases h

/-- A command leaves the host alone (rule R30). -/
theorem exec_host (h : exec i s = .next t) : t.host = s.host := by
  obtain ⟨-, -, -, h⟩ := exec_next h
  cases h with
  | finished m r hm =>
    unfold State.finish State.unlessFaulted
    split
    · exact hm.host
    · simpa using hm.host
  | unconfigured => rfl
  | absentPin => rfl

/-- cmd(C) where its command ended without a model fault: CmdBegin(word(C)) is the first new event, the host
is as it was, and the sequence goes on with RESULT (rules R97, R200). -/
theorem hostCommand_done {k : Word → State → State} (hw : decode s.params (encode i) = .ok i)
    (hm : t.mf = none) (h : hostCommand i s k = .next t) :
    ∃ (u : State) (es : List Event), u.mf = none ∧ u.params = s.params ∧ u.host = s.host ∧
      u.trace = s.trace ++ .cmdBegin (encode i) :: es ∧ t = k u.result (u.give u.result) := by
  obtain ⟨u, h1, h2⟩ := hostCommand_cases h
  have h3 := (gate_next (gate_next h1).2.2.2).2.2.2
  have e : exec i (s.emit (.cmdBegin (encode i))) = .next u := by
    simpa only [State.emit_params, hw] using h3
  have g := grew_exec e
  obtain ⟨es, he, -⟩ := g.events
  obtain ⟨h4, rfl⟩ | ⟨h4, u', h5, rfl⟩ := h2
  · exact absurd hm h4
  · have h6 := (gate_next h5).2.2.2
    simp only [hostReg, if_true] at h6
    cases h6
    exact ⟨u, es, h4, g.params, (exec_host e).trans rfl, by simp [he], rfl⟩

theorem grew_hostCommand {k : Word → State → State} (hk : ∀ r u, Grew u (k r u))
    (h : hostCommand i s k = .next t) : Grew s t := by
  obtain ⟨u, hw, h⟩ := hostCommand_cases h
  have h1 : Grew s u := (hostWrite_cases hw).resolve_right (by simp)
  obtain ⟨-, rfl⟩ | ⟨-, u', hr, rfl⟩ := h
  · exact h1
  · exact grew_trans (grew_trans h1 (grew_hostRead hr)) (hk _ _)

/-- What a step can do: it is taken only where the block takes accesses, and it either writes a
configuration register for the host, or does what Grew says. -/
theorem step_cases (h : step s = .next t) :
    s.refused = false ∧ s.mf = none ∧ paramsOk s.params = true ∧
      (Grew s t ∨
        (∃ v q, s.host.task = .idle ∧ s.host.queue = .write 0x4 16 v :: q ∧
          t = (s.setHost { s.host with queue := q }).setCfgAddr v) ∨
        ∃ v q, s.host.task = .idle ∧ s.host.queue = .write 0x6 16 v :: q ∧
          t = (s.setHost { s.host with queue := q }).setCfgDelay v) := by
  obtain ⟨h1, h2, h3, h⟩ := gate_next h
  refine ⟨h1, h2, h3, ?_⟩
  split at h
  · exact .inl (grew_hostCommand (fun _ _ => grew_phaseDone ..) h)
  · cases h; exact .inl (grew_iterateTurn s _)
  · rename_i ht
    split at h
    · cases h; exact .inl (grew_refl s)
    · rename_i a q hq
      have hd : Grew s (s.setHost { s.host with queue := q }) := grew_setHost s rfl
      cases a with
      | write off width v =>
        obtain h | ⟨rfl, rfl, rfl⟩ | ⟨rfl, rfl, rfl⟩ := hostWrite_cases h
        · exact .inl (grew_trans hd h)
        · exact .inr (.inl ⟨v, q, ht, hq, rfl⟩)
        · exact .inr (.inr ⟨v, q, ht, hq, rfl⟩)
      | read off width => exact .inl (grew_trans hd (grew_hostRead h))
      | load page offset buf count => cases h; exact .inl (grew_trans hd (grew_beginTransfer ..))
      | save page offset buf count => cases h; exact .inl (grew_trans hd (grew_beginTransfer ..))
      | flashRead addr buf bytes => cases h; exact .inl (grew_trans hd (grew_beginFlash ..))
      | flashSave addr buf bytes => cases h; exact .inl (grew_trans hd (grew_beginFlash ..))

end Sys2Proof.Machine
end

