-- ==== Sys2Proof/Tests/Slice0.lean ====
section
/-! SUPPORT. Tests of single words and single steps, each with the vector of 95_test_vectors.md or the rule
its expected result comes from, and one witness for each statement that has hypotheses. -/

namespace Sys2Proof.Tests

open Sys2Proof.Machine

/-- P-REF of 95_test_vectors.md section 1: no TRIGGER. -/
def pRef : Params := { Params.chosen with trigger := none }

/-- P-REF without DEBUG as well. -/
def pBare : Params := { pRef with debug := none }

/-- An environment that pulls nothing. -/
def quiet : Env := .finite [] []

/-- After reset with P-REF. -/
def fresh (e : Env) : State := State.resetWith pRef e HostSide.initial

/-- "Booted": CFG_DELAY 5, CFG_ADDR 0x00A0, DIR 0x06, OUT 0x07; the trace is left out. -/
def booted (e : Env) : State :=
  { fresh e with
    gpio := [⟨0x06, 0x07⟩], cfgAddr := 0x00A0, addrSet := true, cfgDelay := 5, delaySet := true }

/-- Booted, and held as an acknowledged START leaves it: OUT 0x05. -/
def held (e : Env) : State := { booted e with gpio := [⟨0x06, 0x05⟩] }

/-- Booted, with TRIGGER present. -/
def bootedAll : State := { booted quiet with params := Params.chosen, gpio := [⟨0x0E, 0x0F⟩] }

/-- Booted, with these host steps to come. -/
def asked (q : List HostStep) : State :=
  { booted quiet with host := { HostSide.initial with queue := q } }

/-- Booted, with this host sequence in progress. -/
def busy (k : Task) : State := { booted quiet with host := { HostSide.initial with task := k } }

/-- Booted, with SDA an output that is high, or low. -/
def driving (e : Env) (high : Bool) : State :=
  { booted e with gpio := [⟨0x07, if high then 0x07 else 0x06⟩] }

/-- The state of a next answer. -/
def after : Answer → State
  | .next t => t
  | .fault _ => State.reset
  | .refused _ => State.reset

/-- The next state of an answer, none for a stop. -/
def nextOf : Answer → Option State
  | .next t => some t
  | .fault _ => none
  | .refused _ => none

/-- An answer that is a next state is that of `after`. -/
theorem ran {a : Answer} (h : (nextOf a).isSome = true) : a = .next (after a) := by
  cases a <;> first | rfl | cases h

/-- Booted, on a bus with RS: GPIO's reset value is the booted one, so that RS sees the same lines. -/
def bootedRs (rs : RefSlave) : State :=
  { booted (.slave rs) with params := { pRef with resetDir := [0x06], resetOut := [0x07] } }

/-- The number of micro-operation events, as the vectors count them. -/
def micro (t : Trace) : Nat := (t.filter isMicro).length

/-- An environment that pulls SDA low right after WDir(SDA, 1) as a command's first event. -/
def pulling : Env := .finite [[.wDir .sda true]] []

/-! WellFormed: one ill-formed command for each check, and the one PULSE needs none for. -/

theorem test_wf_setDir_absent : Instr.wellFormed pRef (.setDir .trigger true) = false := by decide
theorem test_wf_setLevel_absent : Instr.wellFormed pRef (.setLevel .trigger false) = false := by decide
theorem test_wf_getLevel_absent : Instr.wellFormed pRef (.getLevel .trigger) = false := by decide
theorem test_wf_getLevel_noDebug : Instr.wellFormed pBare (.getLevel .debug) = false := by decide
theorem test_wf_pulse_absent : Instr.wellFormed pRef (.pulse .trigger) = true := by decide
theorem test_wf_present : Instr.wellFormed pRef (.setDir .debug true) = true := by decide

/-! Decode: words written out from rules R94, R95, R99 to R101, bit by bit: OPC, PIN, RSV, B, DATA. -/

theorem test_decode_init : decode pRef 0b0001_00_0_0_00000000#16 = .ok .init := by decide
theorem test_decode_start :
    decode pRef 0b0010_00_0_0_10100001#16 = .ok (.start 0b10100001#8) := by decide
theorem test_decode_stop : decode pRef 0b0011_00_0_0_00000000#16 = .ok .stop := by decide
theorem test_decode_writeByte :
    decode pRef 0b0100_00_0_0_10000001#16 = .ok (.writeByte 0b10000001#8) := by decide
theorem test_decode_readByte :
    decode pRef 0b0101_00_0_1_00000000#16 = .ok (.readByte true) ∧
      decode pRef 0b0101_00_0_0_00000000#16 = .ok (.readByte false) := by decide
theorem test_decode_isPresent : decode pRef 0b0110_00_0_0_00000000#16 = .ok .isPresent := by decide
theorem test_decode_driveSda : decode pRef 0b1000_00_0_1_00000000#16 = .ok (.driveSda true) := by decide
theorem test_decode_readSda : decode pRef 0b1001_00_0_0_00000000#16 = .ok .readSda := by decide
theorem test_decode_driveScl : decode pRef 0b1010_00_0_0_00000000#16 = .ok (.driveScl false) := by decide
theorem test_decode_setDir :
    decode pRef 0b1100_10_0_1_00000000#16 = .ok (.setDir .debug true) ∧
      decode pRef 0b1100_01_0_0_00000000#16 = .ok (.setDir .scl false) := by decide
theorem test_decode_setLevel :
    decode pRef 0b1101_00_0_1_00000000#16 = .ok (.setLevel .sda true) := by decide
theorem test_decode_getLevel :
    decode pRef 0b1110_01_0_0_00000000#16 = .ok (.getLevel .scl) := by decide
theorem test_decode_pulse :
    decode pRef 0b1111_11_0_0_00000000#16 = .ok (.pulse .trigger) := by decide

/-- V-E-1 to V-E-4. -/
theorem test_decode_illegal :
    [0x0000, 0x7000, 0xB123, 0x7100].map (decode pRef) =
      List.replicate 4 (.error .illegalOpcode) := by decide

/-- V-E-5 to V-E-14. -/
theorem test_decode_unused :
    [0x1001, 0x5001, 0x2100, 0x2400, 0x8400, 0x9001, 0xC200, 0xCA00, 0xE100, 0xF900].map (decode pRef) =
      List.replicate 10 (.error .nonzeroUnused) := by decide

/-- V-E-12 with HAS_DEBUG = 0, and V-E-15 to V-E-18. -/
theorem test_decode_absent :
    decode pBare 0xCA00 = .error .nonzeroUnused ∧ decode pBare 0xE800 = .error .absentPin ∧
      [0xEC00, 0xCD00, 0xDC00].map (decode pRef) = List.replicate 3 (.error .absentPin) := by decide

/-- The table's words as the host numbers them. -/
theorem test_decodeTableWord :
    decodeTableWord 16 0x40A5 = some (.writeByte 0xA5) ∧ decodeTableWord 16 0x7000 = none := by decide

/-! The host registers (95_test_vectors.md section 3). -/

/-- V-H-6: bits 15:8 of CFG_ADDR are ignored. -/
theorem test_cfgAddr_low_byte :
    (after (hostRead 4 16 (after (hostWrite 4 16 0x12A0 (fresh quiet))))).host.readData = some 0x00A0 := by
  decide

/-- V-H-5, V-H-10 to V-H-12. -/
theorem test_bad_accesses :
    (after (hostRead 6 16 (fresh quiet))).mf = some .unconfigured ∧
      (after (hostRead 0xA 16 (fresh quiet))).refused = true ∧
      (after (hostRead 3 16 (fresh quiet))).refused = true ∧
      (after (hostRead 2 8 (fresh quiet))).refused = true := by decide

/-- V-H-2, V-H-3. -/
theorem test_caps : capsWord pRef = 0x0001 ∧ capsWord Params.chosen = 0x0003 := by decide

/-- V-E-5 as a whole access: CmdBegin, CmdEnd, and no register of GPIO changed. -/
theorem test_command_error :
    nextOf (step { fresh quiet with host := { HostSide.initial with queue := [.write 0 16 0x1001] } }) =
      some { fresh quiet with
        result := 0xA000, trace := [.cmdBegin 0x1001, .cmdEnd 0xA000] } := by decide

/-- withFetchWord: the very next step runs the word, here INIT with CFG_DELAY unset (V-F-1). -/
theorem test_fetch_word :
    (after (step (State.reset.withFetchWord 16 0x1000))).trace = [.cmdBegin 0x1000] ∧
      (after (step (State.reset.withFetchWord 16 0x1000))).mf = some .unconfigured := by decide

/-! The commands, one step each. -/

/-- V-X-1. -/
theorem test_init_trace :
    nextOf (exec .init { fresh quiet with cfgDelay := 5, delaySet := true }) =
      some { fresh quiet with
        cfgDelay := 5, delaySet := true, gpio := [⟨0x06, 0x07⟩]
        trace := [.wDir .sda false, .wOut .sda true, .wDir .scl true, .delay 5, .wOut .scl true,
          .wOut .debug true, .wDir .debug true, .cmdEnd 0x0000] } := by decide

/-- V-X-3: D = 0 and both optional pins. -/
theorem test_init_no_delay :
    (after (exec .init { bootedAll with gpio := [⟨0, 0⟩], cfgDelay := 0 })).gpio = [⟨0x0E, 0x0F⟩] ∧
      micro (after (exec .init { bootedAll with gpio := [⟨0, 0⟩], cfgDelay := 0 })).trace = 8 := by
  decide

/-- V-X-4: acknowledged by RS. -/
theorem test_start_ack :
    let t := after (exec (.start 0xA0) (bootedRs ⟨0x50, some 0x51, [], 0⟩))
    t.result = 0x0100 ∧ t.gpio = [⟨0x06, 0x05⟩] ∧ micro t.trace = 62 := by decide +kernel

/-- V-X-5, V-X-6: not acknowledged, and with the trigger. -/
theorem test_start_nack :
    (after (exec (.start 0xA0) (booted quiet))).result = 0x0000 ∧
      micro (after (exec (.start 0xA0) bootedAll)).trace = 64 := by decide +kernel

/-- V-X-9. -/
theorem test_stop_trace :
    nextOf (exec .stop (held quiet)) =
      some { booted quiet with
        trace := [.wDir .sda true, .wOut .sda false, .delay 5, .wOut .scl true, .wDir .sda false,
          .wOut .sda true, .cmdEnd 0x0000] } := by decide

/-- V-X-14: STOP before INIT changes OUT alone. -/
theorem test_stop_before_init :
    (after (exec .stop { fresh quiet with cfgDelay := 5, delaySet := true })).gpio = [⟨0x00, 0x03⟩] := by
  decide

/-- V-L1-3: the bits of 0xA5 on the wire, most significant first, then SDA released. -/
theorem test_writeByte_bits :
    let t := after (exec (.writeByte 0xA5) (held quiet))
    bitsAtRises (held quiet).lines ((held quiet).viewOf t.trace) =
        [true, false, true, false, false, true, false, true, true] ∧
      t.result = 0x0000 ∧ micro t.trace = 57 ∧ t.gpio = [⟨0x06, 0x05⟩] := by decide +kernel

/-- V-L1-3, V-X-11: acknowledged, and the event count with D = 0. -/
theorem test_writeByte_ack :
    (after (exec (.writeByte 0xA5) (held (.finite [writeHeadEvents 5 0xA5] [])))).result = 0x0100 ∧
      micro (after (exec (.writeByte 0x00) { held quiet with cfgDelay := 0 })).trace = 38 := by
  decide +kernel

/-- V-X-12: the samples 1,0,0,0,0,0,0,1 give 0x81. -/
theorem test_readByte_samples :
    let pulls := [1, 2, 3, 4, 5, 6].map fun n => beforeSample 5 (true :: List.replicate (n - 1) false)
    let t := after (exec (.readByte false) (held (.finite pulls [])))
    t.result = 0x0081 ∧ micro t.trace = 48 ∧ t.gpio = [⟨0x06, 0x05⟩] := by decide +kernel

/-- V-L1-4, V-X-12: the last byte ends in STOP; nothing pulling gives 0xFF. -/
theorem test_readByte_last :
    let t := after (exec (.readByte true) (held quiet))
    t.result = 0x00FF ∧ micro t.trace = 52 ∧ t.gpio = [⟨0x06, 0x07⟩] := by decide +kernel

/-- V-L1-5: RS1 acknowledges 0xA0. -/
theorem test_isPresent_found :
    let t := after (exec .isPresent (bootedRs ⟨0x50, none, [], 0⟩))
    t.result = 0x0100 ∧ micro t.trace = 68 ∧ t.gpio = [⟨0x06, 0x07⟩] := by decide +kernel

/-- V-L1-5: RS1 does not acknowledge 0xA2. -/
theorem test_isPresent_absent :
    (after (exec .isPresent { bootedRs ⟨0x50, none, [], 0⟩ with cfgAddr := 0x00A2 })).result =
      0x0000 := by decide +kernel

/-- Rules R141, R144: direction first, then level. -/
theorem test_driveSda_order :
    (after (exec (.driveSda false) (booted quiet))).trace =
      [.wDir .sda true, .wOut .sda false, .cmdEnd 0x0000] := by decide

/-- V-F-7: the short at WDir(SDA, 1). -/
theorem test_driveSda_short :
    (after (exec (.driveSda false) (booted pulling))).mf = some .sdaContention ∧
      (after (exec (.driveSda false) (booted pulling))).trace = [.wDir .sda true] := by decide

/-- V-F-5: SDA driven low samples 0. -/
theorem test_readSda_low :
    (after (exec .readSda { fresh quiet with gpio := [⟨0x01, 0x00⟩] })).trace =
      [.sample .sda false, .cmdEnd 0x0000] := by decide

/-- Rules R48, R142: released, SDA is high unless the environment pulls. -/
theorem test_readSda_released :
    (after (exec .readSda (fresh quiet))).result = 0x0100 ∧
      (after (exec .readSda (fresh (.finite [[]] [])))).result = 0x0000 := by decide

/-- Rule R140: the delay comes before the edge. -/
theorem test_driveScl_delay :
    (after (exec (.driveScl false) (booted quiet))).trace =
      [.delay 5, .wOut .scl false, .cmdEnd 0x0000] := by decide

/-- Rule R140: no Delay event for CFG_DELAY = 0. -/
theorem test_driveScl_no_delay :
    (after (exec (.driveScl true) { booted quiet with cfgDelay := 0 })).trace =
      [.wOut .scl true, .cmdEnd 0x0000] := by decide

/-- PR4 step 4: SDA with its output bit 0 goes low, with no question to the environment. -/
theorem test_setDir_low :
    (after (exec (.setDir .sda true) (fresh pulling))).mf = none ∧
      (after (exec (.setDir .sda true) (fresh pulling))).gpio = [⟨0x01, 0x00⟩] := by decide

/-- Rule R124: an output made an input keeps its output bit. -/
theorem test_setDir_input :
    (after (exec (.setDir .scl false) (booted quiet))).gpio = [⟨0x04, 0x07⟩] := by decide

/-- PR4 step 1. -/
theorem test_setLevel_high :
    (after (exec (.setLevel .scl true) (fresh quiet))).gpio = [⟨0x00, 0x02⟩] := by decide

/-- Rule R73: clearing one bit leaves the others. -/
theorem test_setLevel_low :
    (after (exec (.setLevel .scl false) (booted quiet))).gpio = [⟨0x06, 0x05⟩] := by decide

/-- PR4 step 6: SCL driven low reads 0, an undriven SCL reads 1. -/
theorem test_getLevel_scl :
    (after (exec (.getLevel .scl) (held quiet))).result = 0x0000 ∧
      (after (exec (.getLevel .scl) (fresh quiet))).result = 0x0100 := by decide

/-- Rule R50: a DEBUG output reads its output bit, an input its pad. -/
theorem test_getLevel_debug :
    (after (exec (.getLevel .debug) (booted quiet))).result = 0x0100 ∧
      (after (exec (.getLevel .debug) (fresh (.finite [] [(.debug, [])])))).result = 0x0100 := by decide

/-- Rule R123: low then high, and the pin ends high whatever it was. -/
theorem test_pulse_debug :
    (after (exec (.pulse .debug) { booted quiet with gpio := [⟨0x06, 0x03⟩] })).gpio = [⟨0x06, 0x07⟩] ∧
      (after (exec (.pulse .debug) (booted quiet))).trace =
        [.wOut .debug false, .wOut .debug true, .cmdEnd 0x0000] := by decide

/-- V-E-19: PULSE of an absent pin is a no-op. -/
theorem test_pulse_absent :
    (after (exec (.pulse .trigger) (booted quiet))).trace = [.cmdEnd 0x0000] := by decide

/-! The host software. -/

/-- V-PH-1. -/
theorem test_devSelect :
    [0, 255, 256, 511].map (devSelect pRef 0xA0) = [0xA0, 0xA0, 0xA2, 0xA2] ∧
      devSelect pRef 0xFE 300 = 0x00 := by decide

/-- V-IT-2, V-IT-11, V-IT-12. -/
theorem test_chunks :
    chunks 8 4 30 10 = [⟨3, 6, 2, 0⟩] ∧
      chunks 8 4 3 20 = [⟨0, 3, 5, 0⟩, ⟨1, 0, 8, 5⟩, ⟨2, 0, 7, 13⟩] ∧
      chunks 1 3 1 5 = [⟨1, 0, 1, 0⟩, ⟨2, 0, 1, 1⟩] := by decide

/-- V-PH-2: page 512 and offset 256 are refused. -/
theorem test_transfer_refused :
    (after (step (asked [.load 512 0 0 1]))).refused = true ∧
      (after (step (asked [.save 0 256 0 1]))).refused = true := by decide

/-- A memory write is read back, and writing what an unlisted address reads as takes the cell out. -/
theorem test_memory :
    memSet [(5, 0x11), (9, 0x22)] 7 0x33 = [(5, 0x11), (7, 0x33), (9, 0x22)] ∧
      memSet [(5, 0x11), (9, 0x22)] 5 0x00 = [(9, 0x22)] := by decide

/-- Rules R104, R106: a pseudo-instruction and a command line. -/
theorem test_assemble :
    assemble "START_READ 0xA0" = some (.start 0xA1) ∧
      hostStepOf "SET_DIR DEBUG, 1" = some (.write 0 16 0xC900) := by decide +kernel

/-! Witnesses: for each statement with hypotheses, a state and operands that meet all of them. -/

/-- An environment that pulls nothing is quiet at every driven-high window. -/
theorem quiet_along (s : State) (h : s.env = quiet) (es : List Event) : s.QuietAlong es := by
  rintro h' - ⟨-, -, hp⟩
  rw [State.pullsSda, show (s.did h').env = quiet from h] at hp
  cases hp

/-- A first short, looked for in the finite list of prefixes. -/
theorem first_short {s : State} {es h : List Event}
    (hs : h <+: es ∧ (h.getLast?.any isSdaWrite = true ∧ s.ShortAfter h) ∧
      ∀ h' ∈ h.inits, h'.getLast?.any isSdaWrite = true ∧ s.ShortAfter h' → h' = h) :
    s.FirstShort es h :=
  ⟨hs.1, hs.2.1, fun h' hp => hs.2.2 h' (List.mem_inits _ _ |>.2 hp)⟩

theorem witness_ready : (booted quiet).Ready ∧ (held quiet).Ready ∧ (fresh quiet).Ready ∧
    bootedAll.Ready := by decide

theorem witness_takes : (asked []).Takes ∧ State.reset.Takes := by decide

/-- DecodeOfEncode, EncodeOfDecode, ReservedBitIsNoCommand. -/
theorem witness_decode :
    Instr.wellFormed pRef (.getLevel .debug) = true ∧
      decode pRef 0xC900 = .ok (.setDir .debug true) ∧ (0xC200 : Word).getLsbD 9 = true := by decide

/-- WordEncodesByMaskAndMatch, DecodeOutcomes: a row, and a word for each clause. -/
theorem witness_rows :
    ⟨"SET_DIR", 0xC000, 0xF2FF⟩ ∈ opTable ∧ opcOf 0xB123 ∈ [0x0, 0x7, 0xB] ∧
      (opcOf 0xC000 = opcOf 0xC200 ∧ (0xC200 : Word) &&& 0xF2FF ≠ 0xC000) ∧
      (opcOf 0xC000 = opcOf 0xCC00 ∧ (0xCC00 : Word) &&& 0xF2FF = 0xC000 ∧
        opcOf 0xCC00 ∈ [0xC, 0xD, 0xE] ∧ pRef.present (pinOf (pinField 0xCC00)) = false) ∧
      (opcOf 0xC000 = opcOf 0xC900 ∧ (0xC900 : Word) &&& 0xF2FF = 0xC000 ∧
        pRef.present (pinOf (pinField 0xC900)) = true) := by decide

/-- StepRunsDecodedCommand. -/
theorem witness_step_runs :
    (asked [.write 0 16 0x3000]).Takes ∧ (asked [.write 0 16 0x3000]).host.task = .idle ∧
      (asked [.write 0 16 0x3000]).host.queue = .write 0x0 16 0x3000 :: [] ∧
      decode (asked [.write 0 16 0x3000]).params 0x3000 = .ok .stop := by decide

/-- StepTakesHostAccesses: nothing queued, a write and a read. -/
theorem witness_idle :
    (asked []).Takes ∧ (asked []).host.task = .idle ∧ (asked []).host.queue = [] ∧
      (asked [.write 4 16 0x00A2]).Takes ∧ (asked [.read 2 16]).Takes := by decide

/-- ExampleWordsDecode: both optional pins present. -/
theorem witness_examples :
    Params.chosen.present .debug = true ∧ Params.chosen.present .trigger = true := by decide

/-- NoStepAfterMark: a state for each clause. -/
theorem witness_marked :
    ((fresh quiet).refuse.refused = true) ∧
      (((fresh quiet).raise .unconfigured).refused = false ∧
        ((fresh quiet).raise .unconfigured).mf = some .unconfigured) ∧
      ({ fresh quiet with params := { pRef with scl := ⟨0, 0x01⟩ } }.refused = false ∧
        { fresh quiet with params := { pRef with scl := ⟨0, 0x01⟩ } }.mf = none ∧
        paramsOk { pRef with scl := ⟨0, 0x01⟩ } = false) := by decide

/-- CommandErrorIsPrecise: a word for each error, and a command that completes. -/
theorem witness_errors :
    ((asked [.write 0 16 0x7000]).Takes ∧ (asked [.write 0 16 0x7000]).host.task = .idle) ∧
      decode pRef 0x7000 = .error .illegalOpcode ∧ decode pRef 0x1001 = .error .nonzeroUnused ∧
      decode pRef 0xEC00 = .error .absentPin ∧
      Instr.wellFormed (booted quiet).params (.driveSda true) = true := by decide

theorem witness_completes :
    exec (.driveSda true) (booted quiet) = .next (after (exec (.driveSda true) (booted quiet))) ∧
      (after (exec (.driveSda true) (booted quiet))).mf = none := ⟨ran (by decide), by decide⟩

/-- HostReadMap, UnconfiguredUseFaults: each flag set and not set. -/
theorem witness_configured :
    (booted quiet).Takes ∧ (booted quiet).addrSet = true ∧ (booted quiet).delaySet = true ∧
      (fresh quiet).Takes ∧ (fresh quiet).addrSet = false ∧ (fresh quiet).delaySet = false := by decide

/-- BadHostAccessRefused: an unmapped even offset, a wrong width at a register's offset, an odd offset. -/
theorem witness_bad_access :
    (fresh quiet).Takes ∧ 0xA ∉ [0x0, 0x2, 0x4, 0x6, 0x8] ∧ (8 ≠ 16 ∧ 0x2 ∈ [0x0, 0x2, 0x4, 0x6, 0x8]) ∧
      0x9 % 2 = 1 := by decide

/-- ResetValues, ResetMeetsInvariant. -/
theorem witness_reset :
    paramsOk Params.chosen = true ∧ 0 < Params.chosen.nports ∧ Memory.wf HostSide.initial.mem = true := by
  decide

/-- StepKeepsInvariant, StepKeepsRegisterShape, StepOnlyAppendsToTrace: a step that runs a command from a
state that meets the invariant. -/
theorem witness_invariant :
    let s := State.reset.withFetchWord 16 0xC500
    s.Inv ∧ gpioOk s.params s.gpio = true ∧ step s = .next (after (step s)) ∧
      (after (step s)).gpio = [⟨0x02, 0x00⟩] :=
  ⟨by unfold State.Inv; decide, by decide, ran (by decide), by decide⟩

/-- StepKeepsUnboundBits: bit 4 of port 0 is bound to no pin. -/
theorem witness_unbound :
    ∀ p : Pin, Params.chosen.present p = true →
      ¬ (Params.chosen.port p = 0 ∧ (Params.chosen.mask p).testBit 4 = true) := by
  intro p
  cases p <;> decide

/-- WrittenFlagsStaySet: a write of each register at the head of an idle host, and one that waits while a
host sequence is in progress. -/
theorem witness_flags :
    let a := asked [.write 4 16 0x00A2]
    let d := asked [.write 6 16 0x0009]
    let w := { a with host := { a.host with task := .transfer ⟨.load, 0xA0, 0, 0, 0, 1⟩ (.stop 1) none } }
    (step a = .next (after (step a)) ∧ a.addrSet = true ∧ (after (step a)).cfgAddr = 0x00A2) ∧
      (step d = .next (after (step d)) ∧ d.delaySet = true ∧ (after (step d)).cfgDelay = 0x0009) ∧
      (step w = .next (after (step w)) ∧ w.host.task ≠ .idle ∧ (after (step w)).cfgAddr = 0x00A0) :=
  ⟨⟨ran (by decide), rfl, by decide⟩, ⟨ran (by decide), rfl, by decide⟩, ran (by decide), by decide,
    by decide⟩

theorem witness_flags_head (v : Word) :
    (asked [.write 4 16 0x00A2]).host.queue.head? ≠ some (.write 0x6 16 v) ∧
      (asked [.write 6 16 0x0009]).host.queue.head? ≠ some (.write 0x4 16 v) := by
  simp [asked]

/-- CommandFrame: a command that completes, one a model fault ends, and one that is not configured. -/
theorem witness_frame :
    exec .stop (held quiet) = .next (after (exec .stop (held quiet))) ∧
      (exec .stop (booted pulling) = .next (after (exec .stop (booted pulling))) ∧
        (after (exec .stop (booted pulling))).mf = some .sdaContention) ∧
      (exec .stop (fresh quiet) = .next (after (exec .stop (fresh quiet))) ∧
        (after (exec .stop (fresh quiet))).mf = some .unconfigured) :=
  ⟨ran (by decide), ⟨ran (by decide), by decide⟩, ran (by decide), by decide⟩

/-- WDirEffect, WOutEffect: the condition of the fault holds in one state and not in another. -/
theorem witness_writes :
    (booted pulling).mf = none ∧ wDir .sda true (booted pulling) ≠ wDir .sda true (booted quiet) ∧
      (wDir .sda true (booted pulling)).mf = some .sdaContention ∧
      (wDir .sda true (booted quiet)).mf = none := by decide

/-- ReadModifyWriteRegister. -/
theorem witness_rmw :
    paramsOk pRef = true ∧ gpioOk pRef [⟨0x06, 0x07⟩] = true ∧ pRef.present .debug = true := by decide

/-- SampleEffect: both directions of SDA. -/
theorem witness_sample :
    (booted quiet).mf = none ∧ (booted quiet).dirBit .sda = false ∧
      { booted quiet with gpio := [⟨0x07, 0x07⟩] }.dirBit .sda = true := by decide

/-- InputRegisterShowsLevels, GetLevelCompletes: a present pin in output mode. -/
theorem witness_input :
    (booted quiet).Ready ∧ (booted quiet).params.present .debug = true ∧
      (booted quiet).dirBit .debug = true := by decide

/-- SetDirCompletes, SetLevelCompletes: SDA where no short follows, and another pin. -/
theorem witness_set :
    (booted quiet).Ready ∧ ¬ (Pin.sda = .sda ∧ (booted quiet).ShortAfter [.wDir .sda true]) ∧
      ¬ (Pin.sda = .sda ∧ (booted quiet).ShortAfter [.wOut .sda true]) ∧
      ¬ (Pin.debug = .sda ∧ (booted pulling).ShortAfter [.wDir .debug true]) := by decide

/-- PulseCompletes: a driven SDA and no pull, and a released SDA. -/
theorem witness_pulse :
    (driving quiet true).Ready ∧ (driving quiet true).params.present .sda = true ∧
      (driving quiet true).dirBit .sda = true ∧
      envPullsSda (driving quiet true).env (driving quiet true).params
        ((driving quiet true).trace ++ [.wOut .sda false, .wOut .sda true]) = false ∧
      (booted pulling).dirBit .sda = false := by decide

/-- AbsentPinOutcomes. -/
theorem witness_absent : (booted quiet).Takes ∧ (booted quiet).params.present .trigger = false := by
  decide

/-- PinCommandContention, DriveLowContention: a state for each clause. -/
theorem witness_contention :
    (booted pulling).Ready ∧ (booted pulling).outBit .sda = true ∧ (booted pulling).delaySet = true ∧
      envPullsSda (booted pulling).env (booted pulling).params
        ((booted pulling).trace ++ [.wDir .sda true]) = true := by decide

theorem witness_contention_level :
    let s := driving (.finite [[.wOut .sda true]] []) false
    s.Ready ∧ s.dirBit .sda = true ∧
      envPullsSda s.env s.params (s.trace ++ [.wOut .sda true]) = true := by decide

theorem witness_contention_pulse :
    let s := driving (.finite [[.wOut .sda false, .wOut .sda true]] []) true
    s.Ready ∧ s.dirBit .sda = true ∧
      envPullsSda s.env s.params (s.trace ++ [.wOut .sda false, .wOut .sda true]) = true := by decide

/-- DriveSdaCompletes, StopCompletes: SDA's output bit is 1 and the environment does not pull. -/
theorem witness_drive_low :
    (booted quiet).Ready ∧ (booted quiet).delaySet = true ∧ (booted quiet).outBit .sda = true ∧
      envPullsSda (booted quiet).env (booted quiet).params
        ((booted quiet).trace ++ [.wDir .sda true]) = false := by decide

/-- ReadSdaCompletes, DriveSclCompletes, InitCompletes: ready and configured, with both optional pins. -/
theorem witness_init :
    bootedAll.Ready ∧ bootedAll.delaySet = true ∧ bootedAll.params.present .debug = true ∧
      bootedAll.params.present .trigger = true := by decide

/-- StartCompletes, WriteByteCompletes, ReadByteCompletes, IsPresentCompletes: every window is quiet. -/
theorem witness_protocol :
    bootedAll.Ready ∧ bootedAll.delaySet = true ∧ bootedAll.addrSet = true ∧
      ∀ es, bootedAll.QuietAlong es :=
  ⟨by decide, rfl, rfl, quiet_along _ rfl⟩

/-- The same four: a first window that the environment pulls at. START and IS_PRESENT meet it at their START
condition, WRITE_BYTE at its first bit, READ_BYTE at its acknowledgment. -/
theorem witness_first_short_start :
    let w := [Event.delay 2, .delay 5, .wOut .scl true, .wDir .sda true]
    let s := booted (.finite [w] [])
    s.Ready ∧ s.FirstShort (startEvents s.params s.cfgDelay 0xA0 true) w ∧
      s.FirstShort (isPresentEvents s.params s.cfgDelay s.configuredAddr true) w :=
  ⟨by decide, first_short (by decide +kernel), first_short (by decide +kernel)⟩

theorem witness_first_short_write :
    let w := [Event.delay 5, .wOut .scl false, .wDir .sda true]
    let s := held (.finite [w] [])
    s.Ready ∧ s.FirstShort (writeByteEvents s.cfgDelay 0x00 true) w :=
  ⟨by decide, first_short (by decide +kernel)⟩

theorem witness_first_short_read :
    let w := (List.replicate 8 true).flatMap (readBitEvents 5) ++ [.wDir .sda true]
    let s := held (.finite [w] [])
    s.Ready ∧ s.readSamples 8 = List.replicate 8 true ∧
      s.FirstShort (readByteEvents s.cfgDelay (List.replicate 8 true) false) w :=
  ⟨by decide, by decide +kernel, first_short (by decide +kernel)⟩

/-- A pull at the 9th clock acknowledges, whatever the environment does at windows the command never makes
(rules R172, R247). -/
theorem test_writeByte_own_windows :
    let s := held (.finite [writeHeadEvents 5 0x00, [.wDir .sda true]] [])
    (after (exec (.writeByte 0x00) s)).result = 0x0100 := by decide +kernel

/-- ProtocolEndStates, CommandDelays: SCL an output, and a command that completes. -/
theorem witness_end_state :
    (held quiet).Ready ∧ (held quiet).dirBit .scl = true ∧
      exec .stop (held quiet) = .next (after (exec .stop (held quiet))) ∧
      (after (exec .stop (held quiet))).mf = none :=
  ⟨by decide, by decide, ran (by decide), by decide⟩

/-- ProtocolEndStates, CommandDelays: every protocol command completes from held and from idle. -/
theorem witness_end_states :
    ∀ i ∈ [Instr.init, .start 0xA0, .stop, .writeByte 0x5A, .readByte false, .readByte true, .isPresent],
      (nextOf (exec i (held quiet))).map (·.mf) = some none ∧
        (nextOf (exec i (booted quiet))).map (·.mf) = some none := by decide +kernel

/-- CommandsWithoutContention: every command it names is answered in an environment that pulls. -/
theorem witness_no_contention_all :
    ∀ i ∈ [Instr.init, .readSda, .driveSda true, .driveScl false, .getLevel .sda, .pulse .debug,
        .setDir .scl true, .setLevel .debug false],
      (nextOf (exec i (booted pulling))).map (·.mf) = some none := by decide

/-- CommandsWithoutContention: in an environment that pulls. -/
theorem witness_no_contention :
    (booted pulling).Ready ∧
      exec (.driveScl true) (booted pulling) = .next (after (exec (.driveScl true) (booted pulling))) ∧
      (after (exec (.driveScl true) (booted pulling))).mf = none :=
  ⟨by decide, ran (by decide), by decide⟩

/-- ContentionIsAtAWindow. -/
theorem witness_window :
    exec (.driveSda false) (booted pulling) =
        .next (after (exec (.driveSda false) (booted pulling))) ∧
      (after (exec (.driveSda false) (booted pulling))).mf = some .sdaContention :=
  ⟨ran (by decide), by decide⟩

/-- WriteByteOnTheWire, StartAndStopOnTheBus, ReadByteOnTheWire: the bus idle, and held. -/
theorem witness_bus :
    (booted quiet).Ready ∧ (booted quiet).BusIdle ∧ (held quiet).Ready ∧ (held quiet).BusHeld ∧
      (held quiet).dirBit .scl = true ∧ (List.replicate 8 true).length = 8 := by decide

/-- LoadAndSaveBegin: the last page and offset, the first beyond each, and CFG_ADDR not written. -/
theorem witness_transfer :
    ({ asked [.load 0 0 0 1] with addrSet := false }.Takes ∧
      (after (step { asked [.load 0 0 0 1] with addrSet := false })).mf = some .unconfigured) ∧
    (asked [.load 511 255 0 1]).Takes ∧ (asked [.load 511 255 0 1]).host.task = .idle ∧
      (asked [.load 511 255 0 1]).addrSet = true ∧
      (asked [.load 512 255 0 1]).Takes ∧ (asked [.save 511 256 0 1]).Takes := by decide

/-- A transfer for the witnesses below. -/
def job (op : Xfer) (count : Nat) : Job := ⟨op, 0xA0, 0x00, 0x10, 100, count⟩

/-- AddressingPhaseRetries: not acknowledged, and the PULSE after it. -/
theorem witness_start_phase :
    let s := busy (.transfer (job .load 1) (.start 0) none)
    step s = .next (after (step s)) ∧ (after (step s)).mf = none ∧
      (after (step s)).host.task = .transfer (job .load 1) (.pulse 0) none :=
  ⟨ran (by decide +kernel), by decide +kernel, by decide +kernel⟩

/-- AddressingPhaseRetries, DataPhaseEndsAndReturns: each other phase runs, and the first data byte of two is
followed by the second. -/
theorem witness_phases :
    ∀ k ∈ [Task.transfer (job .load 1) (.pulse 0) none, .transfer (job .load 1) .page none,
        .transfer (job .load 1) .offset none, .transfer (job .save 1) .offset none,
        .transfer (job .load 2) .readStart none, .transfer (job .load 2) (.data 0) none,
        .transfer (job .save 2) (.data 0) none, .transfer (job .load 2) (.data 1) none,
        .transfer (job .save 2) (.data 1) none, .transfer (job .save 2) (.stop 2) none],
      (nextOf (step { busy k with gpio := [⟨0x06, 0x05⟩] })).map (·.mf) = some none := by decide +kernel

/-- DataPhaseMovesBytes: a byte of LOAD that is the last, and one of SAVE. -/
theorem witness_load_byte :
    let s := { busy (.transfer (job .load 1) (.data 0) none) with gpio := [⟨0x06, 0x05⟩] }
    step s = .next (after (step s)) ∧ (after (step s)).mf = none ∧ (job .load 1).op = .load ∧
      Memory.wf s.host.mem = true ∧ memByte (after (step s)).host.mem 100 = 0xFF :=
  ⟨ran (by decide +kernel), by decide +kernel, rfl, rfl, by decide +kernel⟩

theorem witness_save_byte :
    let s := { busy (.transfer (job .save 2) (.data 0) none) with gpio := [⟨0x06, 0x05⟩] }
    step s = .next (after (step s)) ∧ (after (step s)).mf = none ∧ (job .save 2).op = .save :=
  ⟨ran (by decide +kernel), by decide +kernel, rfl⟩

/-- DataPhaseEndsAndReturns, AddressingPhaseRetries: count 0, LOAD at its last START and SAVE at its offset byte. -/
theorem witness_load_zero :
    let s := { busy (.transfer (job .load 0) .readStart none) with gpio := [⟨0x06, 0x05⟩] }
    step s = .next (after (step s)) ∧ (after (step s)).mf = none ∧ (job .load 0).count = 0 :=
  ⟨ran (by decide +kernel), by decide +kernel, rfl⟩

theorem witness_save_zero :
    let s := { busy (.transfer (job .save 0) .offset none) with gpio := [⟨0x06, 0x05⟩] }
    step s = .next (after (step s)) ∧ (after (step s)).mf = none ∧ (job .save 0).count = 0 :=
  ⟨ran (by decide +kernel), by decide +kernel, rfl⟩

/-- ChunksStayInBlocks, ChunksTileTheRange: V-L1-6, with a first chunk and a second. -/
theorem witness_chunks :
    0 < 8 ∧ chunks 8 4 0 10 = [⟨0, 0, 8, 0⟩, ⟨1, 0, 2, 8⟩] ∧
      (chunks 8 4 0 10).head? = some ⟨0, 0, 8, 0⟩ := by decide

/-- FlashBeginsAndIterates: the last block of the device, the block after it, and nothing remaining. -/
theorem witness_iterator :
    let s := busy (.iterate ⟨.load, 20, 3, 0, 0, 0⟩)
    s.Takes ∧ s.addrSet = true ∧ s.host.task = .iterate ⟨.load, 20, 3, 0, 0, 0⟩ ∧
      (1 ≤ s.params.blockSize ∧ s.params.blockSize ≤ 256 ∧ s.params.totalBlocks ≤ 512) ∧
      (0 < 3 ∧ 20 / s.params.blockSize < s.params.totalBlocks) ∧
      s.params.totalBlocks ≤ 32 / s.params.blockSize := by decide

/-- P-REF with a device of this block size and number of blocks. -/
def device (bsize total : Nat) : State :=
  { asked [.flashRead 0 0 1] with params := { pRef with blockSize := bsize, totalBlocks := total } }

/-- FlashBeginsAndIterates: rule R220 refuses a block size of 0, and rule R227 takes the largest device that
LOAD and SAVE can be bound to and no larger. -/
theorem test_flash_device :
    (∀ d ∈ [device 0 4, device 257 4, device 300 1, device 8 513],
      d.Takes ∧ (after (step d)).refused = true) ∧
      (device 256 512).Takes ∧
      (after (step (device 256 512))).host.task = .iterate ⟨.load, 0, 1, 0, 0, 0⟩ := by decide

/-- FlashBeginsAndIterates, DataPhaseEndsAndReturns: the return of a chunk of 3 bytes moves the loop on. -/
theorem test_chunk_return :
    let k := Task.transfer (job .save 3) (.stop 3) (some ⟨.save, 20, 5, 1, 7, 0⟩)
    (after (step (busy k))).host.task = .iterate ⟨.save, 23, 2, 4, 10, 0⟩ := by decide +kernel

end Sys2Proof.Tests
end

section
/-! The decoder, by the fields of a word and the rows of the opcode table (rules R94 to R96). -/

namespace Sys2Proof

variable {c : Params} {w : Word} {i : Instr} {row : OpRow}

/-! The fields of a word. -/

theorem opcOf_and (w m : Word) : opcOf (w &&& m) = opcOf w &&& opcOf m := BitVec.extractLsb'_and

theorem pinField_and (w m : Word) : pinField (w &&& m) = pinField w &&& pinField m :=
  BitVec.extractLsb'_and

theorem boolField_and (w m : Word) : boolField (w &&& m) = (boolField w && boolField m) :=
  BitVec.getLsbD_and

theorem dataField_and (w m : Word) : dataField (w &&& m) = dataField w &&& dataField m :=
  BitVec.extractLsb'_and

@[simp] theorem pinCode_pinOf (n : BitVec 2) : pinCode (pinOf n) = n := by
  revert n
  decide

/-- A word with RSV = 0 is packed from its four fields (rule R94). -/
theorem packWord_fields (h : w.getLsbD 9 = false) :
    packWord (opcOf w) (pinField w) (boolField w) (dataField w) = w := by
  apply BitVec.eq_of_getLsbD_eq
  intro n hn
  simp only [packWord, opcOf, pinField, boolField, dataField, BitVec.getLsbD_append]
  have h9 : w[9] = false := h
  interval_cases n <;> simp [h9]

/-! The rows of the opcode table. -/

/-- What the 13 rows have in common: the opcode and RSV are fixed, RSV as 0, and each other field is either
an operand or fixed as 0. -/
theorem opTable_row (hr : row ∈ opTable) :
    rowOf (opcOf row.mat) = some row ∧ opcOf row.mask = BitVec.allOnes 4 ∧
      (row.mask.getLsbD 9 = true ∧ row.mat.getLsbD 9 = false) ∧
      ((pinField row.mask = 0 ∨ pinField row.mask = BitVec.allOnes 2) ∧ pinField row.mat = 0) ∧
      boolField row.mat = false ∧
      (dataField row.mask = 0 ∨ dataField row.mask = BitVec.allOnes 8) ∧ dataField row.mat = 0 := by
  revert row
  decide

/-- The opcodes with no row (rule R95). -/
theorem rowOf_eq_none_iff (o : BitVec 4) : rowOf o = none ↔ o ∈ [0x0, 0x7, 0xB] := by
  revert o
  decide

theorem rowOf_eq_some {o : BitVec 4} (h : rowOf o = some row) : row ∈ opTable ∧ opcOf row.mat = o :=
  ⟨List.mem_of_find?_eq_some h, by simpa using List.find?_some h⟩

/-- The word of the row with the operands of `w`: what the mask covers is as in the row, the rest as in `w`. -/
def OpRow.withOperands (row : OpRow) (w : Word) : Word :=
  packWord (opcOf row.mat) (if pinField row.mask = 0 then pinField w else 0)
    (!boolField row.mask && boolField w) (if dataField row.mask = 0 then dataField w else 0)

/-- A field the mask covers wholly or not at all is, where its covered bits are 0, an operand or 0. -/
theorem operand_eq_of_masked {n : Nat} {x m : BitVec n} (hm : m = 0 ∨ m = BitVec.allOnes n)
    (h : x &&& m = 0) : (if m = 0 then x else 0) = x := by
  obtain rfl | rfl := hm
  · simp
  · rw [BitVec.and_allOnes] at h
    simp [h]

/-- A word of the row is known by its operands: (w & mask) = match fixes all other bits (rule R95). -/
theorem OpRow.withOperands_of_match (hr : row ∈ opTable) (h : w &&& row.mask = row.mat) :
    row.withOperands w = w := by
  obtain ⟨-, hones, ⟨hrsv, hrsv0⟩, ⟨hpin, hpin0⟩, hbool0, hdata, hdata0⟩ := opTable_row hr
  have hopc : opcOf row.mat = opcOf w := by rw [← h, opcOf_and, hones, BitVec.and_allOnes]
  have h9 : w.getLsbD 9 = false := by
    rw [← h, BitVec.getLsbD_and, hrsv, Bool.and_true] at hrsv0
    exact hrsv0
  have hb : (!boolField row.mask && boolField w) = boolField w := by
    rw [← h, boolField_and] at hbool0
    revert hbool0
    cases boolField w <;> simp
  rw [withOperands, hopc, operand_eq_of_masked hpin (by rw [← pinField_and, h, hpin0]), hb,
    operand_eq_of_masked hdata (by rw [← dataField_and, h, hdata0]), packWord_fields h9]

/-! The command of a word. -/

/-- A word with the opcode of a row names the command of that row, with the word's own operands. -/
theorem commandOf_of_row (hr : row ∈ opTable) (ho : opcOf row.mat = opcOf w) :
    ∃ i, commandOf w = some i ∧ i.mnemonic = row.mnemonic ∧ encode i = row.withOperands w := by
  unfold commandOf
  rw [← ho]
  fin_cases hr
  -- the nine rows with no PIN operand, INIT to DRIVE_SCL
  iterate 9 · exact ⟨_, rfl, rfl, rfl⟩
  -- the four with one, SET_DIR to PULSE
  all_goals exact ⟨_, rfl, rfl, congrArg (packWord _ · _ _) (pinCode_pinOf _)⟩

/-- The commands Decode can leave out are SET_DIR, SET_LEVEL and GET_LEVEL of an absent pin (rules R96, R102). -/
theorem wellFormed_eq_false_iff (h : commandOf w = some i) :
    i.wellFormed c = false ↔
      opcOf w ∈ [0xC, 0xD, 0xE] ∧ c.present (pinOf (pinField w)) = false := by
  unfold commandOf at h
  split at h <;> cases h <;> simp [Instr.wellFormed, ← BitVec.toNat_inj, *]

/-! Decode. -/

theorem decode_of_rowOf_none (h : rowOf (opcOf w) = none) : decode c w = .error .illegalOpcode := by
  rw [decode, h]

/-- Decode of a word whose opcode has a row (rule R96). -/
theorem decode_of_row (hr : row ∈ opTable) (ho : opcOf row.mat = opcOf w) (hi : commandOf w = some i) :
    decode c w =
      if w &&& row.mask ≠ row.mat then .error .nonzeroUnused
      else if i.wellFormed c then .ok i else .error .absentPin := by
  have h := (opTable_row hr).1
  rw [ho] at h
  rw [decode, h, hi]

/-- Settles O4: a word that meets its row's match is the row with its own operands, so the word of the command it
names; what stops it short of that is no row, no match or an absent pin, in this order. -/
theorem decodeOutcomes : Obligations.DecodeOutcomes := by
  refine ⟨⟨rfl, rfl, rfl⟩, fun c w => ⟨fun h => ?_, fun h => ?_, fun row hr ho => ?_⟩⟩
  · exact decode_of_rowOf_none ((rowOf_eq_none_iff _).2 h)
  · obtain ⟨row, hrow⟩ := Option.ne_none_iff_exists'.1 (mt (rowOf_eq_none_iff _).1 h)
    exact ⟨row, rowOf_eq_some hrow⟩
  · obtain ⟨i, hi, hname, hword⟩ := commandOf_of_row hr ho
    rw [decode_of_row hr ho hi, ← wellFormed_eq_false_iff hi]
    refine ⟨fun hm => if_pos hm, fun hm => ⟨fun hwf => ?_, fun hwf => ⟨i, ?_, hname, ?_⟩⟩⟩
    · simp [hm, hwf]
    · simp [hm, Bool.of_not_eq_false hwf]
    · rw [hword, OpRow.withOperands_of_match hr hm]

end Sys2Proof
end

section
/-! Host accesses that reach no register (rule R93), and a state with REFUSED set (rule R58). -/

namespace Sys2Proof.Machine

variable {s : State} {off width : Nat}

/-- The accesses that reach no register (rules R90, R93). -/
theorem hostReg_eq_none_iff :
    hostReg off width = none ↔ off ∉ [0x0, 0x2, 0x4, 0x6, 0x8] ∨ width ≠ 16 := by
  unfold hostReg
  split_ifs with hw
  · split <;> simp_all
  · simp [hw]

theorem hostWrite_of_hostReg_none (hs : s.Takes) (h : hostReg off width = none) (v : Word) :
    hostWrite off width v s = .next s.refuse := by
  rw [hostWrite, gate_of_takes hs, h]

theorem hostRead_of_hostReg_none (hs : s.Takes) (h : hostReg off width = none) :
    hostRead off width s = .next s.refuse := by
  rw [hostRead, gate_of_takes hs, h]

theorem step_of_refused (h : s.refused = true) : step s = .refused .hostRefused := by
  rw [step, hostTurn, State.gate, if_pos h]

/-- Every register's offset is even, so an odd one is no register's (rule R90). -/
theorem not_register_of_odd (h : off % 2 = 1) : off ∉ [0x0, 0x2, 0x4, 0x6, 0x8] := by
  simp only [List.mem_cons, List.not_mem_nil, or_false]
  omega

/-- Settles O15: each of the three faults of an access makes it reach no register. -/
theorem badHostAccessRefused : Obligations.BadHostAccessRefused := by
  intro s off width v hs hbad
  have hreg : hostReg off width = none := by
    rw [hostReg_eq_none_iff]
    obtain hoff | hwidth | hodd := hbad
    · exact .inl hoff
    · exact .inr hwidth
    · exact .inl (not_register_of_odd hodd)
  exact ⟨hostWrite_of_hostReg_none hs hreg v, hostRead_of_hostReg_none hs hreg, step_of_refused rfl⟩

end Sys2Proof.Machine
end

section
/-! The micro-operations (rules R120 to R122), and the bits of the IN registers that belong to pins (rule R51). -/

namespace Sys2Proof.Machine

variable {s : State} {p : Pin} {i : Nat}

/-! The contention check (rules R53, R120, R121). -/

theorem driveOf_eq_high_iff : s.driveOf p = .high ↔ s.dirBit p = true ∧ s.outBit p = true := by
  rw [driveOf_eq]
  cases s.dirBit p <;> cases s.outBit p <;> decide

/-- The fault of rule R53, in the two bits of SDA. -/
theorem shortAfter_iff (s : State) (es : List Event) :
    s.ShortAfter es ↔ (s.did es).dirBit .sda = true ∧ (s.did es).outBit .sda = true ∧
      envPullsSda s.env s.params (s.trace ++ es) = true := by
  rw [State.ShortAfter, driveOf_eq_high_iff, and_assoc]
  rfl

/-- Settles O25: what WDir does is its event, and a stop at it on a short, put in the bits of SDA. -/
theorem wDirEffect : Obligations.WDirEffect := fun s _ _ hm =>
  (wDir_eq hm).trans (if_congr (and_congr_right' (shortAfter_iff s _)) rfl rfl)

/-- Settles O26, as for WDir. -/
theorem wOutEffect : Obligations.WOutEffect := fun s _ _ hm =>
  (wOut_eq hm).trans (if_congr (and_congr_right' (shortAfter_iff s _)) rfl rfl)

/-! The level of a pin (rules R48 to R50). -/

theorem level_sda_of_output (h : s.dirBit .sda = true) : s.level .sda = s.outBit .sda := by
  rw [State.level, driveOf_eq, if_pos h]
  cases s.outBit .sda <;> rfl

theorem level_sda_of_input (h : s.dirBit .sda = false) : s.level .sda = !s.pullsSda := by
  rw [State.level, driveOf_eq, h]
  rfl

theorem level_scl (s : State) : s.level .scl = if s.dirBit .scl then s.outBit .scl else true := rfl

theorem level_debug_or_trigger (s : State) (hp : p = .debug ∨ p = .trigger) :
    s.level p = if s.dirBit p then s.outBit p else s.padLevel p := by
  obtain rfl | rfl := hp <;> rfl

/-! The bits of IN (rule R51). -/

/-- The step for pin q writes q's bit of q's port and no other bit. -/
theorem testBit_inBit (hc : paramsOk s.params = true) (hi : i < s.params.width) (k v : Nat) (q : Pin) :
    (s.inBit k v q).testBit i =
      if s.params.present q = true ∧ s.params.port q = k ∧ s.params.mask q = 2 ^ i then s.level q
      else v.testBit i := by
  by_cases hq : s.params.present q = true ∧ s.params.port q = k
  · obtain ⟨hpres, rfl⟩ := hq
    obtain ⟨j, -, hj, -⟩ := mask_of_present hc hpres
    have hji : (2 ^ j = 2 ^ i) ↔ j = i := Nat.pow_right_inj (le_refl 2)
    cases hl : s.level q
    · by_cases h : j = i <;> simp [State.inBit, hpres, hl, hj, hji, h, testBit_complementAt, hi]
    · by_cases h : j = i <;> simp [State.inBit, hpres, hl, hj, hji, h]
  · rw [if_neg (fun h => hq ⟨h.1, h.2.1⟩), State.inBit, if_neg (by simpa using hq)]

/-- The bit of a present pin is written in no other pin's step, since two pins differ in port or mask (rule R12). -/
theorem testBit_inBit_of_present (hc : paramsOk s.params = true) (hp : s.params.present p = true)
    (hi : i < s.params.width) (hm : s.params.mask p = 2 ^ i) (v : Nat) (q : Pin) :
    (s.inBit (s.params.port p) v q).testBit i = if q = p then s.level p else v.testBit i := by
  rw [testBit_inBit hc hi]
  by_cases hqp : q = p
  · subst hqp
    rw [if_pos ⟨hp, rfl, hm⟩, if_pos rfl]
  · rw [if_neg hqp, if_neg]
    rintro ⟨hq, hport, hmask⟩
    exact hqp (binding_injective hc hq hp hport (hmask.trans hm.symm))

theorem testBit_foldl_inBit (hc : paramsOk s.params = true) (hp : s.params.present p = true)
    (hi : i < s.params.width) (hm : s.params.mask p = 2 ^ i) (v : Nat) (ps : List Pin) :
    (ps.foldl (s.inBit (s.params.port p)) v).testBit i =
      if p ∈ ps then s.level p else v.testBit i := by
  induction ps generalizing v with
  | nil => rfl
  | cons q ps ih =>
    rw [List.foldl_cons, ih, testBit_inBit_of_present hc hp hi hm]
    by_cases hps : p ∈ ps <;> simp [hps, eq_comm]

/-- Bit mask(p) of IN[port(p)] is the level of p's line or pad (rule R51). -/
theorem memReadIn_bit_eq_level (hc : paramsOk s.params = true) (hp : s.params.present p = true) :
    (s.memReadIn (s.params.port p) &&& s.params.mask p != 0) = s.level p := by
  obtain ⟨i, hi, hm, -⟩ := mask_of_present hc hp
  have hall : p ∈ [Pin.sda, .scl, .debug, .trigger] := by cases p <;> decide
  rw [hm, and_two_pow_ne_zero, State.memReadIn, testBit_foldl_inBit hc hp hi hm, if_pos hall]

/-- Settles O28: Sample returns the level of the pin, which is the pin's bit of IN. -/
theorem sampleEffect : Obligations.SampleEffect := by
  intro s hm
  refine ⟨fun p => sample_eq hm, level_sda_of_output, level_sda_of_input, level_scl s,
    fun p hp => level_debug_or_trigger s hp, fun hs p hp => ?_⟩
  obtain ⟨-, -, hc, -⟩ := hs
  exact (memReadIn_bit_eq_level hc hp).symm

end Sys2Proof.Machine
end

section
/-! The device byte of a page (rule R201). -/

namespace Sys2Proof.Machine

variable {c : Params} {base : Byte} {page : Nat}

theorem devSelect_of_le (h : page ≤ c.pageSplit) : devSelect c base page = base := if_pos h

theorem devSelect_of_lt (h : c.pageSplit < page) : devSelect c base page = base + c.pageHiOffset :=
  if_neg (Nat.not_le.mpr h)

/-- Settles O53: a sum of bytes wraps at 256. -/
theorem deviceSelect : Obligations.DeviceSelect := by
  intro c base page
  by_cases h : page ≤ c.pageSplit
  · rw [devSelect_of_le h, if_pos h]
  · rw [devSelect_of_lt (Nat.not_le.mp h), if_neg h, BitVec.toNat_add]

end Sys2Proof.Machine
end

section
/-! Decode of a command's own word (rules R94 to R96, R99 to R101). -/

namespace Sys2Proof

variable {c : Params} {i : Instr}

/-! The fields of a packed word. -/

/-- Where each field of rule R94 lies in a packed word. -/
theorem getLsbD_packWord (o : BitVec 4) (p : BitVec 2) (b : Bool) (d : Byte) (n : Nat) :
    (packWord o p b d).getLsbD n =
      if n < 8 then d.getLsbD n else if n = 8 then b else if n = 9 then false
      else if n < 12 then p.getLsbD (n - 10) else o.getLsbD (n - 12) := by
  simp only [packWord, BitVec.getLsbD_append, BitVec.getLsbD_ofBool]
  grind

@[simp] theorem opcOf_packWord (o : BitVec 4) (p : BitVec 2) (b : Bool) (d : Byte) :
    opcOf (packWord o p b d) = o := by
  ext n hn
  have h : ¬ 12 + n < 8 ∧ 12 + n ≠ 8 ∧ 12 + n ≠ 9 := by omega
  simp [opcOf, getLsbD_packWord, h, hn]

@[simp] theorem pinField_packWord (o : BitVec 4) (p : BitVec 2) (b : Bool) (d : Byte) :
    pinField (packWord o p b d) = p := by
  ext n hn
  have h : ¬ 10 + n < 8 ∧ 10 + n ≠ 8 ∧ 10 + n ≠ 9 ∧ 10 + n < 12 := by omega
  simp [pinField, getLsbD_packWord, h, hn]

@[simp] theorem boolField_packWord (o : BitVec 4) (p : BitVec 2) (b : Bool) (d : Byte) :
    boolField (packWord o p b d) = b :=
  getLsbD_packWord o p b d 8

@[simp] theorem dataField_packWord (o : BitVec 4) (p : BitVec 2) (b : Bool) (d : Byte) :
    dataField (packWord o p b d) = d := by
  ext n hn
  simp [dataField, getLsbD_packWord, hn]

@[simp] theorem pinOf_pinCode (p : Pin) : pinOf (pinCode p) = p := by cases p <;> rfl

theorem commandOf_encode (i : Instr) : commandOf (encode i) = some i := by
  cases i <;> simp [commandOf, encode]

/-- The laws of Laws/PerInstr.lean, for every command. -/
theorem reservedClear : ∀ i : Instr, Laws.ReservedClear.Statement i
  | .init => Laws.ReservedClear.init
  | .start a => Laws.ReservedClear.start a
  | .stop => Laws.ReservedClear.stop
  | .writeByte d => Laws.ReservedClear.writeByte d
  | .readByte last => Laws.ReservedClear.readByte last
  | .isPresent => Laws.ReservedClear.isPresent
  | .driveSda b => Laws.ReservedClear.driveSda b
  | .readSda => Laws.ReservedClear.readSda
  | .driveScl b => Laws.ReservedClear.driveScl b
  | .setDir p v => Laws.ReservedClear.setDir p v
  | .setLevel p v => Laws.ReservedClear.setLevel p v
  | .getLevel p => Laws.ReservedClear.getLevel p
  | .pulse p => Laws.ReservedClear.pulse p

/-- The word of a command has its opcode's row and meets that row's match (rule R95). -/
theorem encode_row (i : Instr) :
    ∃ row ∈ opTable, opcOf row.mat = opcOf (encode i) ∧ encode i &&& row.mask = row.mat := by
  obtain ⟨-, row, hr, -, hm⟩ := reservedClear i
  obtain ⟨-, hones, -⟩ := opTable_row hr
  exact ⟨row, hr, by rw [← hm, opcOf_and, hones, BitVec.and_allOnes], hm⟩

/-- Decode of the word of a command these parameters admit is the command (rule R96). -/
theorem decode_encode (h : i.wellFormed c = true) : decode c (encode i) = .ok i := by
  obtain ⟨row, hr, ho, hm⟩ := encode_row i
  rw [decode_of_row hr ho (commandOf_encode i), if_neg (not_not.2 hm), if_pos h]

end Sys2Proof
end

section
/-! Command errors (rules R241 to R243), and the use of a configuration register never written (rule R245). -/

namespace Sys2Proof.Machine

variable {s t : State} {i : Instr} {w : Word}

/-! The run of a command word (rules R92, R97). -/

theorem hostWrite_cmd (hs : s.Takes) (w : Word) : hostWrite 0x0 16 w s = runCommand w s :=
  gate_of_takes hs _

/-- A command error is RESULT and two events (rules R97, R241). -/
theorem runCommand_of_error {e : CommandError} (hs : s.Takes) (h : decode s.params w = .error e) :
    runCommand w s = .next { s with
      result := errorWord e, trace := s.trace ++ [.cmdBegin w, .cmdEnd (errorWord e)] } := by
  rw [runCommand, gate_of_takes hs, h]
  simp [State.commandError, State.emit, State.setResult]

theorem runCommand_of_ok (hs : s.Takes) (h : decode s.params w = .ok i) :
    runCommand w s = exec i (s.emit (.cmdBegin w)) := by
  rw [runCommand, gate_of_takes hs, h]

/-! A command that ends in no fault and no error. -/

/-- RESULT of a command that ended in no error has ERR = 0 (rules R35, R98). -/
theorem resultWord_err (r : Reply) : (resultWord r).getLsbD 15 = false := by
  simp [resultWord, zextBool]

/-- RESULT after the end of a command that no model fault stopped (rule R98). -/
theorem finish_result {r : Reply} (h : (s.finish r).mf = none) : (s.finish r).result = resultWord r := by
  by_cases hm : s.mf = none
  · rw [State.finish, State.unlessFaulted, hm]
    rfl
  · rw [finish_faulted hm] at h
    exact absurd h hm

theorem needPin_of_present {p : Pin} (hp : s.params.present p = true) (k : Answer) : s.needPin p k = k :=
  if_pos hp

/-- A command the parameters admit that no model fault stopped came to the end of its sequence: the absent-pin
error is the only other end, and a command it could meet is not admitted (rules R96, R97). -/
theorem exec_finish_of_wellFormed (hw : i.wellFormed s.params = true) (h : exec i s = .next t)
    (hm : t.mf = none) : ∃ (m : State) (r : Reply), t = m.finish r := by
  cases i <;> obtain ⟨-, -, -, hk⟩ := gate_next h
  case driveSda | readSda | pulse => exact ⟨_, _, next_inj hk⟩
  case init | start | stop | writeByte | readByte | driveScl =>
    exact ⟨_, _, next_inj (needDelay_unfaulted hk hm).2⟩
  case isPresent =>
    obtain ⟨-, hk⟩ := needDelay_unfaulted hk hm
    exact ⟨_, _, next_inj (needAddr_unfaulted hk hm).2⟩
  case setDir | setLevel | getLevel =>
    rw [needPin_of_present hw] at hk
    exact ⟨_, _, next_inj hk⟩

/-- Settles O12: the error's own RESULT and its two events are all that the run of an undecodable word leaves,
and an admitted command that no fault stopped ends with a RESULT whose ERR is 0. -/
theorem commandErrorIsPrecise : Obligations.CommandErrorIsPrecise := by
  refine ⟨fun s w e hs hd => ?_, fun s t i hw h hm => ?_⟩
  · rw [hostWrite_cmd hs, runCommand_of_error hs hd]
    cases e <;> rfl
  · obtain ⟨m, r, rfl⟩ := exec_finish_of_wellFormed hw h hm
    rw [finish_result hm, resultWord_err]

/-! Use of a configuration register before its first write (rule R245). -/

theorem needDelay_unset (h : s.delaySet = false) (k : Answer) :
    s.needDelay k = .next (s.faultedWith .unconfigured) := by
  rw [State.needDelay, h]
  rfl

theorem needAddr_unset (h : s.addrSet = false) (k : Answer) :
    s.needAddr k = .next (s.faultedWith .unconfigured) := by
  rw [State.needAddr, h]
  rfl

/-- needs_delay of rule R97: the commands whose sequence drives SCL. -/
def needsDelay : Instr → Bool
  | .init | .start _ | .stop | .writeByte _ | .readByte _ | .isPresent | .driveScl _ => true
  | .driveSda _ | .readSda | .setDir _ _ | .setLevel _ _ | .getLevel _ | .pulse _ => false

theorem wellFormed_of_needsDelay (h : needsDelay i = true) (c : Params) : i.wellFormed c = true := by
  cases i <;> cases h <;> rfl

/-- The commands of needs_delay check DELAY_SET before anything else (rule R97). -/
theorem exec_of_needsDelay (h : needsDelay i = true) (s : State) :
    ∃ k, exec i s = s.gate (s.needDelay k) := by
  cases i <;> cases h <;> exact ⟨_, rfl⟩

theorem exec_of_delay_unset (hs : s.Takes) (hd : s.delaySet = false) (h : needsDelay i = true) :
    exec i s = .next (s.faultedWith .unconfigured) := by
  obtain ⟨k, hk⟩ := exec_of_needsDelay h s
  rw [hk, gate_of_takes hs, needDelay_unset hd]

/-- IS_PRESENT checks ADDR_SET after DELAY_SET, and either fault is the same. -/
theorem exec_isPresent_of_addr_unset (hs : s.Takes) (ha : s.addrSet = false) :
    exec .isPresent s = .next (s.faultedWith .unconfigured) := by
  cases hd : s.delaySet
  · exact exec_of_delay_unset hs hd rfl
  · rw [exec, execIsPresent, gate_of_takes hs, State.needDelay, if_pos hd, needAddr_unset ha]

/-- Settles O16: each use meets its check first, and the check changes MF alone. -/
theorem unconfiguredUseFaults : Obligations.UnconfiguredUseFaults := by
  intro s hs
  have hrun {i : Instr} (hi : needsDelay i = true) :
      runCommand (encode i) s = exec i (s.emit (.cmdBegin (encode i))) :=
    runCommand_of_ok hs (decode_encode (wellFormed_of_needsDelay hi _))
  refine ⟨fun i hd hi => ?_, fun ha => ?_, fun hd => ?_, fun ha => ?_⟩
  · have hi : needsDelay i = true := by
      obtain hi | ⟨a, rfl⟩ | ⟨d, rfl⟩ | ⟨l, rfl⟩ | ⟨b, rfl⟩ := hi
      · fin_cases hi <;> rfl
      all_goals rfl
    rw [hrun hi]
    exact exec_of_delay_unset hs hd hi
  · rw [hrun rfl]
    exact exec_isPresent_of_addr_unset hs ha
  · exact (gate_of_takes hs _).trans (needDelay_unset hd _)
  · exact (gate_of_takes hs _).trans (needAddr_unset ha _)

end Sys2Proof.Machine
end

section
/-! Words and commands (rules R95, R96, R102, R104): the two directions of Decode and of the opcode table. -/

namespace Sys2Proof

variable {c : Params} {w : Word} {i : Instr} {row : OpRow}

/-- What Decode checked of a word it took for a command (rule R96). -/
theorem decode_eq_ok (h : decode c w = .ok i) :
    ∃ row ∈ opTable, w &&& row.mask = row.mat ∧ opcOf row.mat = opcOf w ∧ commandOf w = some i ∧
      i.wellFormed c = true := by
  cases hrow : rowOf (opcOf w) with
  | none => rw [decode_of_rowOf_none hrow] at h; cases h
  | some row =>
    obtain ⟨hr, ho⟩ := rowOf_eq_some hrow
    obtain ⟨i', hi, -⟩ := commandOf_of_row hr ho
    rw [decode_of_row hr ho hi] at h
    split_ifs at h with hm hw
    cases h
    exact ⟨row, hr, not_not.1 hm, ho, hi, hw⟩

/-- The mask of a row covers the opcode (rule R95). -/
theorem opcOf_of_match (hr : row ∈ opTable) (h : w &&& row.mask = row.mat) :
    opcOf row.mat = opcOf w := by
  obtain ⟨-, hones, -⟩ := opTable_row hr
  rw [← h, opcOf_and, hones, BitVec.and_allOnes]

/-- A word of a row is the word of a command with the row's mnemonic (rule R95). -/
theorem encode_of_match (hr : row ∈ opTable) (h : w &&& row.mask = row.mat) :
    ∃ i, commandOf w = some i ∧ i.mnemonic = row.mnemonic ∧ encode i = w := by
  obtain ⟨i, hi, hname, hword⟩ := commandOf_of_row hr (opcOf_of_match hr h)
  exact ⟨i, hi, hname, hword.trans (OpRow.withOperands_of_match hr h)⟩

theorem encode_of_decode (h : decode c w = .ok i) : encode i = w := by
  obtain ⟨row, hr, hm, -, hi, -⟩ := decode_eq_ok h
  obtain ⟨i', hi', -, hword⟩ := encode_of_match hr hm
  obtain rfl : i' = i := Option.some_inj.1 (hi'.symm.trans hi)
  exact hword

theorem wellFormed_of_decode (h : decode c w = .ok i) : i.wellFormed c = true := by
  obtain ⟨-, -, -, -, -, hw⟩ := decode_eq_ok h
  exact hw

/-- No two rows have one mnemonic (rule R95). -/
theorem opTable_mnemonic_injective :
    ∀ r ∈ opTable, ∀ r' ∈ opTable, r.mnemonic = r'.mnemonic → r = r' := by decide

/-- Settles O1: the word of a command has its opcode's row, meets its match, and names the command. -/
theorem decodeOfEncode : Obligations.DecodeOfEncode := fun _ _ h => decode_encode h

/-- Settles O2: a word that meets its row's match is the word of the command it names. -/
theorem encodeOfDecode : Obligations.EncodeOfDecode := fun _ _ _ h =>
  ⟨encode_of_decode h, wellFormed_of_decode h⟩

/-- Settles O3: a word of the row is packed from the row and its operands, and a command's word is in the one
row that has its mnemonic. -/
theorem wordEncodesByMaskAndMatch : Obligations.WordEncodesByMaskAndMatch := by
  refine ⟨by decide, fun row w hr => ⟨fun hm => ?_, ?_⟩⟩
  · obtain ⟨i, -, hname, hword⟩ := encode_of_match hr hm
    exact ⟨i, hname, hword⟩
  · rintro ⟨i, hname, rfl⟩
    obtain ⟨-, row', hr', hname', hm⟩ := reservedClear i
    obtain rfl := opTable_mnemonic_injective row' hr' row hr (hname'.trans hname)
    exact hm

/-- Settles O5: a word that decodes is a command's word, and RSV is 0 in every command's word. -/
theorem reservedBitIsNoCommand : Obligations.ReservedBitIsNoCommand := by
  intro c w i h9 hd
  obtain ⟨h, -⟩ := reservedClear i
  rw [encode_of_decode hd, h9] at h
  cases h

/-- Settles O6: each example is the word of its command. -/
theorem exampleWordsDecode : Obligations.ExampleWordsDecode := by
  intro c
  have read {w : Word} {i : Instr} (hw : encode i = w) (hi : i.wellFormed c = true) :
      decode c w = .ok i := hw ▸ decode_encode hi
  exact ⟨read rfl rfl, read rfl rfl, read rfl rfl, read rfl rfl, read rfl rfl, read rfl rfl,
    read rfl rfl, read rfl rfl, read rfl rfl, read (i := .setDir .debug true) rfl,
    read (i := .setLevel .trigger false) rfl, read rfl rfl, read rfl rfl⟩

end Sys2Proof
end

section
/-! The assembler (rules R104 to R106): a line is cut into the words it was written from, and each operand is
read back from its text. -/

namespace Sys2Proof.Machine

/-- A word of a line: no space or comma in it (rule R104). -/
def isToken (t : String) : Prop := t ≠ "" ∧ ∀ ch ∈ t.toList, ch ≠ ' ' ∧ ch ≠ ','

theorem wordsOf_append (cs rest cur : List Char) (h : ∀ ch ∈ cs, ch ≠ ' ' ∧ ch ≠ ',') :
    wordsOf (cs ++ rest) cur = wordsOf rest (cs.reverse ++ cur) := by
  induction cs generalizing cur with
  | nil => rfl
  | cons ch cs ih =>
    obtain ⟨hch, hcs⟩ := List.forall_mem_cons.1 h
    rw [List.cons_append, wordsOf, if_neg (by simp [hch]), ih _ hcs]
    simp

theorem wordsOf_token {t : String} (h : isToken t) : wordsOf t.toList [] = [t] := by
  obtain ⟨hne, hcs⟩ := h
  have := wordsOf_append t.toList [] [] hcs
  simpa [wordsOf, hne] using this

theorem wordsOf_token_sep {t : String} (h : isToken t) {sep : Char} (hs : sep = ' ' ∨ sep = ',')
    (rest : List Char) : wordsOf (t.toList ++ sep :: rest) [] = t :: wordsOf rest [] := by
  obtain ⟨hne, hcs⟩ := h
  rw [wordsOf_append _ _ _ hcs, wordsOf, if_pos hs]
  simp [hne]

theorem isToken_mnemonic (i : Instr) : isToken i.mnemonic := by
  cases i <;> simp [isToken, Instr.mnemonic]

theorem isToken_pinName (p : Pin) : isToken (pinName p) := by cases p <;> simp [isToken, pinName]

theorem isToken_boolText (b : Bool) : isToken (boolText b) := by cases b <;> simp [isToken, boolText]

theorem hexDigit_ne_separator : ∀ n < 16, hexDigit n ≠ ' ' ∧ hexDigit n ≠ ',' := by decide

theorem digitValue_hexDigit : ∀ n < 16, digitValue 16 (hexDigit n) = some n := by decide

theorem byte_digits (d : Byte) : d.toNat / 16 < 16 ∧ d.toNat % 16 < 16 := by
  have := d.isLt
  omega

theorem isToken_byteText (d : Byte) : isToken (byteText d) := by
  obtain ⟨hh, hl⟩ := byte_digits d
  simp [isToken, byteText, hexDigit_ne_separator _ hh, hexDigit_ne_separator _ hl]

theorem isToken_operand {i : Instr} {t : String} (h : t ∈ operandTexts i) : isToken t := by
  cases i <;> simp only [operandTexts, List.mem_cons, List.not_mem_nil, or_false] at h
  case start | writeByte => exact h ▸ isToken_byteText _
  case readByte | driveSda | driveScl => exact h ▸ isToken_boolText _
  case getLevel | pulse => exact h ▸ isToken_pinName _
  case setDir | setLevel =>
    obtain rfl | rfl := h
    · exact isToken_pinName _
    · exact isToken_boolText _

/-- The line of a command is cut into its mnemonic and its operands (rule R104). -/
theorem wordsOf_assemblyOf (i : Instr) :
    wordsOf (assemblyOf i).toList [] = i.mnemonic :: operandTexts i := by
  have hm := isToken_mnemonic i
  have ho : ∀ t ∈ operandTexts i, isToken t := fun _ => isToken_operand
  have hlen : (operandTexts i).length ≤ 2 := by cases i <;> simp [operandTexts]
  unfold assemblyOf
  match operandTexts i, hlen, ho with
  | [], _, _ => exact wordsOf_token hm
  | [a], _, ho =>
    have ha := wordsOf_token (ho a (by simp))
    simpa [ha] using wordsOf_token_sep hm (.inl rfl) a.toList
  | [a, b], _, ho =>
    have hb : wordsOf (' ' :: b.toList) [] = [b] := wordsOf_token (ho b (by simp))
    have ha := wordsOf_token_sep (ho a (by simp)) (.inr rfl) (' ' :: b.toList)
    simpa [ha, hb] using wordsOf_token_sep hm (.inl rfl) (a.toList ++ ',' :: ' ' :: b.toList)

/-! Each operand is read back from its text. -/

theorem boolOf_boolText (b : Bool) : boolOf (boolText b) = some b := by cases b <;> rfl

theorem pinOfName_pinName (p : Pin) : pinOfName (pinName p) = some p := by cases p <;> rfl

theorem byteOf_byteText (d : Byte) : byteOf (byteText d) = some d := by
  obtain ⟨hh, hl⟩ := byte_digits d
  simp [byteOf, byteText, digitsValue, digitValue_hexDigit _ hh, digitValue_hexDigit _ hl,
    Nat.div_add_mod']

theorem commandFromWords_operandTexts (i : Instr) :
    commandFromWords (i.mnemonic :: operandTexts i) = some i := by
  have pinAndBool {f : Pin → Bool → Instr} (p : Pin) (b : Bool) :
      (pinOfName (pinName p)).bind (fun q => (boolOf (boolText b)).map (f q)) = some (f p b) := by
    rw [pinOfName_pinName, boolOf_boolText]
    rfl
  cases i with
  | init | stop | isPresent | readSda => rfl
  | start d => exact congrArg (Option.map Instr.start) (byteOf_byteText d)
  | writeByte d => exact congrArg (Option.map Instr.writeByte) (byteOf_byteText d)
  | readByte b => exact congrArg (Option.map Instr.readByte) (boolOf_boolText b)
  | driveSda b => exact congrArg (Option.map Instr.driveSda) (boolOf_boolText b)
  | driveScl b => exact congrArg (Option.map Instr.driveScl) (boolOf_boolText b)
  | setDir p b => exact pinAndBool p b
  | setLevel p b => exact pinAndBool p b
  | getLevel p => exact congrArg (Option.map Instr.getLevel) (pinOfName_pinName p)
  | pulse p => exact congrArg (Option.map Instr.pulse) (pinOfName_pinName p)

/-- Settles O7: the line is cut into the words it was written from, and these name the command. -/
theorem assemblyReadsBack : Obligations.AssemblyReadsBack := fun i => by
  rw [assemble, wordsOf_assemblyOf, commandFromWords_operandTexts]

end Sys2Proof.Machine
end

section
/-! The step and the host registers (rules R57, R58, R92): what a step takes off the host's queue, what each
register answers, and how the run of a word can end (rule R240). -/

namespace Sys2Proof.Machine

variable {s t : State} {i : Instr} {w : Word}

/-! The marks that stop every step (rules R12, R57, R58). -/

theorem gate_of_refused (h : s.refused = true) (k : Answer) : s.gate k = .refused .hostRefused :=
  if_pos h

theorem gate_of_mf {m : ModelFault} (hr : s.refused = false) (h : s.mf = some m) (k : Answer) :
    s.gate k = .fault (.halted m) := by
  simp [State.gate, hr, h]

theorem gate_of_params (hr : s.refused = false) (hm : s.mf = none) (h : paramsOk s.params = false)
    (k : Answer) : s.gate k = .refused .parameterSet := by
  simp [State.gate, hr, hm, h]

/-- Every command meets the first check before anything else (rules R57, R58). -/
theorem exec_eq_gate (i : Instr) (s : State) : ∃ k, exec i s = s.gate k := by
  cases i <;> exact ⟨_, rfl⟩

/-- Settles O10: the step and every command meet the same first check. -/
theorem noStepAfterMark : Obligations.NoStepAfterMark := by
  intro s i
  obtain ⟨k, hk⟩ := exec_eq_gate i s
  rw [hk, step, hostTurn]
  exact ⟨fun h => ⟨gate_of_refused h _, gate_of_refused h _⟩,
    fun m hr h => ⟨gate_of_mf hr h _, gate_of_mf hr h _⟩,
    fun hr hm h => ⟨gate_of_params hr hm h _, gate_of_params hr hm h _⟩⟩

/-! One step, by the host's sequence in progress and its queue (rules R32, R92). -/

theorem step_of_queue_empty (hs : s.Takes) (ht : s.host.task = .idle) (hq : s.host.queue = []) :
    step s = .next s := by
  rw [step, hostTurn, gate_of_takes hs, ht, hq]

theorem step_of_queue_cons {h : HostStep} {q : List HostStep} (hs : s.Takes)
    (ht : s.host.task = .idle) (hq : s.host.queue = h :: q) :
    step s = runHostStep (s.dequeued q) h := by
  rw [step, hostTurn, gate_of_takes hs, ht, hq]
  rfl

theorem step_of_transfer {job : Job} {ph : Phase} {parent : Option Flash} (hs : s.Takes)
    (ht : s.host.task = .transfer job ph parent) :
    step s = hostCommand (phaseCommand s.host.mem job ph) s fun r t => t.phaseDone job parent r ph := by
  rw [step, hostTurn, gate_of_takes hs, ht]

theorem step_of_iterate {f : Flash} (hs : s.Takes) (ht : s.host.task = .iterate f) :
    step s = .next (s.iterateTurn f) := by
  rw [step, hostTurn, gate_of_takes hs, ht]

/-- Settles O9: a step on the queue's head is the access it names. -/
theorem stepTakesHostAccesses : Obligations.StepTakesHostAccesses := fun _ hs ht =>
  ⟨step_of_queue_empty hs ht, fun _ _ _ _ => step_of_queue_cons hs ht,
    fun _ _ _ => step_of_queue_cons hs ht⟩

/-- Settles O8: the queued access is a write of CMD, which runs its word. -/
theorem stepRunsDecodedCommand : Obligations.StepRunsDecodedCommand := by
  intro s w q i hs ht hq hd
  rw [step_of_queue_cons hs ht hq, runHostStep, hostWrite_cmd (s := s.dequeued q) hs,
    runCommand_of_ok (s := s.dequeued q) hs hd]
  rfl

/-! The host registers (rules R36 to R38, R92). -/

theorem extractLsb'_setWidth_eq_and (v : Word) : (v.extractLsb' 0 8).setWidth 16 = v &&& 0x00FF := by
  have h := Nat.and_two_pow_sub_one_eq_mod v.toNat 8
  apply BitVec.eq_of_toNat_eq
  simp at h ⊢
  omega

/-- Settles O13: each offset is its register's, and each write that register's own. -/
theorem hostWriteMap : Obligations.HostWriteMap := by
  intro s v hs
  have hval := extractLsb'_setWidth_eq_and v
  refine ⟨hostWrite_cmd hs v, gate_of_takes hs _, ?_, gate_of_takes hs _, gate_of_takes hs _⟩
  rw [← hval]
  exact gate_of_takes hs _

/-- CAPS bit by bit (rule R38). -/
theorem getLsbD_capsWord (c : Params) (n : Nat) :
    (capsWord c).getLsbD n = (n == 0 && c.present .debug || n == 1 && c.present .trigger) := by
  rcases n with _ | _ | n <;> simp [capsWord, zextBool]

/-- Settles O14: each offset is its register's, and a configuration register meets its written-flag first. -/
theorem hostReadMap : Obligations.HostReadMap := by
  intro s hs
  refine ⟨gate_of_takes hs _, gate_of_takes hs _, fun ha => ?_, fun ha => ?_, fun hd => ?_, fun hd => ?_,
    capsWord s.params, gate_of_takes hs _, getLsbD_capsWord s.params⟩
  · exact (gate_of_takes hs _).trans (if_pos ha)
  · exact (gate_of_takes hs _).trans (needAddr_unset ha _)
  · exact (gate_of_takes hs _).trans (if_pos hd)
  · exact (gate_of_takes hs _).trans (needDelay_unset hd _)

/-! The frame of a command (rules R30, R97, R98, R244). -/

theorem finish_of_unfaulted (hm : s.mf = none) (r : Reply) : s.finish r = s.completed [] r := by
  have := finish_did hm [] r
  rwa [did_nil] at this

@[simp] theorem finish_mf (s : State) (r : Reply) : (s.finish r).mf = s.mf := by
  by_cases hm : s.mf = none
  · rw [finish_of_unfaulted hm]; rfl
  · rw [finish_faulted hm]

/-- Settles O24: each way a command can end, its sequence moving only GPIO and the trace. -/
theorem commandFrame : Obligations.CommandFrame := by
  intro s t i h
  obtain ⟨-, hm, -, hend⟩ := exec_next h
  cases hend with
  | finished m r moved =>
    obtain ⟨es, hes, htrace, hgpio⟩ := moved.events
    by_cases hmm : m.mf = none
    · rw [finish_of_unfaulted hmm]
      refine ⟨moved.params, moved.cfgAddr, moved.cfgDelay, moved.addrSet, moved.delaySet, moved.refused,
        moved.env, moved.host, es, hes, hgpio, .inr ⟨hmm, ?_⟩⟩
      simp [State.completed, htrace]
    · rw [finish_faulted hmm]
      exact ⟨moved.params, moved.cfgAddr, moved.cfgDelay, moved.addrSet, moved.delaySet, moved.refused,
        moved.env, moved.host, es, hes, hgpio, .inl ⟨hmm, moved.result, htrace⟩⟩
  | unconfigured =>
    exact ⟨rfl, rfl, rfl, rfl, rfl, rfl, rfl, rfl, [], by simp, rfl, .inl ⟨by simp, rfl, by simp⟩⟩
  | absentPin =>
    exact ⟨rfl, rfl, rfl, rfl, rfl, rfl, rfl, rfl, [], by simp, rfl,
      .inr ⟨hm, by simp [State.commandError]⟩⟩

/-! The outcomes of a word (rules R240, R241, R244). -/

theorem errorWord_err (e : CommandError) : (errorWord e).getLsbD 15 = true := by cases e <;> rfl

/-- RESULT of a command the parameters allow has ERR = 0 where no model fault stopped it (rules R97, R98). -/
theorem exec_result_err (hw : i.wellFormed s.params = true) (h : exec i s = .next t) (hm : t.mf = none) :
    t.result.getLsbD 15 = false := by
  obtain ⟨m, r, rfl⟩ := exec_finish_of_wellFormed hw h hm
  rw [finish_result hm, resultWord_err]

/-- Settles O11: a word that does not decode ends as its error; one that does ends as its command, whose frame
says what the trace gained. -/
theorem commandOutcomes : Obligations.CommandOutcomes := by
  intro s w hs
  cases hd : decode s.params w with
  | error e =>
    exact ⟨_, [.cmdEnd (errorWord e)], runCommand_of_error hs hd, hs.1, rfl,
      .inl ⟨hs.2.1, rfl, by simp [errorWord_err]⟩⟩
  | ok i =>
    obtain ⟨t, ht⟩ := exec_answers (s := s.emit (.cmdBegin w)) hs i
    obtain ⟨-, -, -, -, -, hrefused, -, -, es, hes, -, hend⟩ := commandFrame _ t i ht
    rw [runCommand_of_ok hs hd]
    obtain ⟨hm, hresult, htrace⟩ | ⟨hm, htrace⟩ := hend
    · exact ⟨t, es, ht, hrefused.trans hs.1, by simpa using htrace,
        .inr ⟨hm, hresult, hes, i, rfl⟩⟩
    · have herr := exec_result_err (s := s.emit (.cmdBegin w)) (wellFormed_of_decode hd) ht hm
      exact ⟨t, es ++ [.cmdEnd t.result], ht, hrefused.trans hs.1, by simpa using htrace,
        .inl ⟨hm, by simp, fun h => absurd (herr.symm.trans h) (by decide),
          fun ⟨_, he⟩ => nomatch he⟩⟩

end Sys2Proof.Machine
end

section
/-! Reset and the invariants of every step (rules R35, R36, R39, R41, R45, R55, R61, R72). -/

namespace Sys2Proof.Machine

variable {s t : State} {c : Params}

/-! Reset (rules R61, R271). -/

theorem portOf_resetGpio (hd : c.resetDir.length = c.nports) (ho : c.resetOut.length = c.nports)
    {k : Nat} (hk : k < c.nports) :
    portOf (resetGpio c) k = ⟨c.resetDir.getD k 0, c.resetOut.getD k 0⟩ := by
  simp [portOf, resetGpio, List.getD_eq_getElem?_getD, hd, ho, hk]

theorem gpioOk_resetGpio (hc : paramsOk c = true) : gpioOk c (resetGpio c) = true := by
  simp only [paramsOk, Bool.and_eq_true, beq_iff_eq, List.all_eq_true, decide_eq_true_eq] at hc
  obtain ⟨⟨⟨⟨⟨⟨-, hd⟩, ho⟩, hdir⟩, hout⟩, -⟩, -⟩ := hc
  simp only [gpioOk, Bool.and_eq_true, beq_iff_eq, List.all_eq_true, decide_eq_true_eq, resetGpio,
    List.length_zipWith, hd, ho, min_self, true_and]
  intro q hq
  obtain ⟨n, hn, rfl⟩ := List.mem_iff_getElem.1 hq
  rw [List.getElem_zipWith]
  exact ⟨hdir _ (List.getElem_mem _), hout _ (List.getElem_mem _)⟩

/-- Settles O17: port k of the reset register file is made of the k-th values of the two parameters. -/
theorem resetValues : Obligations.ResetValues := by
  intro c e h hc
  refine ⟨rfl, rfl, rfl, rfl, rfl, rfl, gpioOk_resetGpio hc, fun k hk => ?_⟩
  simp only [paramsOk, Bool.and_eq_true, beq_iff_eq] at hc
  obtain ⟨⟨⟨⟨⟨⟨-, hd⟩, ho⟩, -⟩, -⟩, -⟩, -⟩ := hc
  have hport := portOf_resetGpio hd ho hk
  exact ⟨congrArg Port.dir hport, congrArg Port.out hport⟩

/-- The invariant at the start of a trace (rules R61, R72). -/
theorem inv_resetWith (c : Params) (e : Env) {h : HostSide} (hw : Memory.wf h.mem = true) :
    (State.resetWith c e h).Inv :=
  ⟨rfl, rfl, (by decide : resultOk 0 = true),
    (by decide : (0 : Word).extractLsb' 8 8 = 0), hw⟩

/-- Settles O18: there are no events yet, every value is 0, and memory is canonical as given. -/
theorem resetMeetsInvariant : Obligations.ResetMeetsInvariant :=
  ⟨inv_resetWith _ _ wf_empty, fun c e _ hw => inv_resetWith c e hw⟩

/-! The invariant (rules R35, R36, R72, R98). -/

theorem inv_of_grew (hi : s.Inv) (h : Grew s t) : t.Inv := by
  obtain ⟨hgpio, hresult, hlayout, haddr, hwf⟩ := hi
  obtain ⟨es, htrace, hg, hr⟩ := h.events
  refine ⟨?_, ?_, h.resultOk hlayout, by rw [h.cfgAddr, haddr], h.wf hwf⟩
  · rw [hg, htrace, h.params, replay_append, ← hgpio]
  · rw [hr, htrace, lastResult_append, ← hresult]

theorem inv_setCfgAddr (hi : s.Inv) (v : Word) : (s.setCfgAddr v).Inv := by
  obtain ⟨hgpio, hresult, hlayout, -, hwf⟩ := hi
  refine ⟨hgpio, hresult, hlayout, ?_, hwf⟩
  rw [State.setCfgAddr_cfgAddr]
  ext n hn
  simp

theorem inv_setCfgDelay (hi : s.Inv) (v : Word) : (s.setCfgDelay v).Inv := hi

/-- Settles O19: a step appends events to what the invariant says of the trace, or stores a configuration
register, where only bits 15:8 of CFG_ADDR matter. -/
theorem stepKeepsInvariant : Obligations.StepKeepsInvariant := by
  intro s t hi h
  obtain ⟨-, -, -, hgrew | ⟨v, q, -, -, rfl⟩ | ⟨v, q, -, -, rfl⟩⟩ := step_cases h
  · exact inv_of_grew hi hgrew
  · exact inv_setCfgAddr (inv_of_grew hi (grew_setHost s rfl)) v
  · exact inv_setCfgDelay (inv_of_grew hi (grew_setHost s rfl)) v

/-! The register file, the trace and the constant fields. -/

/-- What every step does to GPIO and the trace, a write of a configuration register being no event. -/
theorem step_events (h : step s = .next t) :
    t.params = s.params ∧ t.env = s.env ∧
      ∃ es : List Event, t.trace = s.trace ++ es ∧ t.gpio = replay s.params s.gpio es := by
  obtain ⟨-, -, -, hgrew | ⟨v, q, -, -, rfl⟩ | ⟨v, q, -, -, rfl⟩⟩ := step_cases h
  · obtain ⟨es, htrace, hg, -⟩ := hgrew.events
    exact ⟨hgrew.params, hgrew.env, es, htrace, hg⟩
  all_goals exact ⟨rfl, rfl, [], by simp, rfl⟩

theorem paramsOk_of_step (h : step s = .next t) : paramsOk s.params = true := (step_cases h).2.2.1

/-- Settles O20: the step's events keep the shape. -/
theorem stepKeepsRegisterShape : Obligations.StepKeepsRegisterShape := by
  intro s t hg h
  obtain ⟨hp, -, es, -, hgpio⟩ := step_events h
  rw [hp, hgpio]
  exact gpioOk_replay (paramsOk_of_step h) hg es

/-- Settles O21: no event writes such a bit. -/
theorem stepKeepsUnboundBits : Obligations.StepKeepsUnboundBits := by
  intro s t r k j hg h hk
  obtain ⟨-, -, es, -, hgpio⟩ := step_events h
  rw [hgpio, testBit_replay_unbound (paramsOk_of_step h) hg hk]

/-- Settles O22: what a step does to the trace is to append its events. -/
theorem stepOnlyAppendsToTrace : Obligations.StepOnlyAppendsToTrace := by
  intro s t h
  obtain ⟨hp, he, es, htrace, -⟩ := step_events h
  exact ⟨⟨es, htrace⟩, hp, he⟩

/-- Settles O23: only the two host writes touch these fields, and each its own register alone. -/
theorem writtenFlagsStaySet : Obligations.WrittenFlagsStaySet := by
  intro s t h
  obtain ⟨-, -, -, hgrew | ⟨v, q, ht, hq, rfl⟩ | ⟨v, q, ht, hq, rfl⟩⟩ := step_cases h
  · exact ⟨hgrew.addrSet.trans, hgrew.delaySet.trans, fun _ => ⟨hgrew.cfgAddr, hgrew.addrSet⟩,
      fun _ => ⟨hgrew.cfgDelay, hgrew.delaySet⟩⟩
  · exact ⟨fun _ => rfl, id, fun hno => absurd ⟨ht, v, by simp [hq]⟩ hno, fun _ => ⟨rfl, rfl⟩⟩
  · exact ⟨id, fun _ => rfl, fun _ => ⟨rfl, rfl⟩, fun hno => absurd ⟨ht, v, by simp [hq]⟩ hno⟩

/-! One register of the file (rule R73). -/

/-- Numbers with no bit in common add without a carry. -/
theorem add_eq_or_of_and_eq_zero {a b : Nat} (h : a &&& b = 0) : a + b = a ||| b := by
  have hadd := BitVec.add_eq_or_of_and_eq_zero (BitVec.ofNat (a + b + 1) a)
    (BitVec.ofNat (a + b + 1) b) (by rw [← BitVec.ofNat_and, h])
  have hsum : a + b < 2 ^ (a + b + 1) := (Nat.lt_succ_self _).trans Nat.lt_two_pow_self
  have ha : a < 2 ^ (a + b + 1) := (Nat.le_add_right a b).trans_lt hsum
  have hb : b < 2 ^ (a + b + 1) := (Nat.le_add_left b a).trans_lt hsum
  simpa [Nat.mod_eq_of_lt, hsum, ha, hb] using congrArg BitVec.toNat hadd

/-- Clearing bit i takes its value off. -/
theorem and_complementAt {w i n : Nat} (hn : n < 2 ^ w) :
    n &&& complementAt w (2 ^ i) = n - (n &&& 2 ^ i) := by
  have hhigh : ∀ j, w ≤ j → n.testBit j = false := fun j hj =>
    Nat.testBit_lt_two_pow (hn.trans_le (Nat.pow_le_pow_right (by omega) hj))
  have hdisjoint : (n &&& complementAt w (2 ^ i)) &&& (n &&& 2 ^ i) = 0 := by
    refine Nat.eq_of_testBit_eq fun j => ?_
    by_cases hj : j < w
    · by_cases hij : i = j <;> simp [testBit_complementAt, hij, hj]
    · simp [hhigh j (by omega)]
  have hcover : (n &&& complementAt w (2 ^ i)) ||| (n &&& 2 ^ i) = n := by
    refine Nat.eq_of_testBit_eq fun j => ?_
    by_cases hj : j < w
    · by_cases hij : i = j <;> simp [testBit_complementAt, hij, hj]
    · simp [hhigh j (by omega)]
  have hsum := add_eq_or_of_and_eq_zero hdisjoint
  omega

/-- Settles O27: one register is written, and a register below 2^W loses the bit by subtraction. -/
theorem readModifyWriteRegister : Obligations.ReadModifyWriteRegister := by
  intro c g r r' p v k hc hg hp
  obtain ⟨i, -, hm, hport⟩ := mask_of_present hc hp
  have hlen := gpioOk_length hg
  have hvalue := and_complementAt (i := i) (memRead_lt hg r (c.port p))
  by_cases h : r' = r ∧ k = c.port p
  · obtain ⟨rfl, rfl⟩ := h
    cases v <;> simp [rmw, memRead_memWrite, hlen, hport, hm, hvalue]
  · rw [if_neg h]
    have h' : ¬ (r = r' ∧ c.port p = k ∧ c.port p < g.length) := fun ⟨h1, h2, _⟩ =>
      h ⟨h1.symm, h2.symm⟩
    cases v <;> simp [rmw, memRead_memWrite, h']

/-- Settles O29: the level of a pin is its bit of IN, and an output's is its output bit. -/
theorem inputRegisterShowsLevels : Obligations.InputRegisterShowsLevels := by
  intro s p ⟨_, _, hc, _⟩ hp
  refine ⟨memReadIn_bit_eq_level hc hp, fun hd => ?_⟩
  cases p with
  | sda => exact level_sda_of_output hd
  | scl => rw [level_scl, if_pos hd]
  | debug => rw [level_debug_or_trigger s (.inl rfl), if_pos hd]
  | trigger => rw [level_debug_or_trigger s (.inr rfl), if_pos hd]

end Sys2Proof.Machine
end

section
/-! The pin commands and the signal commands (rules R124 to R127, R144 to R146): what each does, in any
environment, and the bits of the pins after it. -/

namespace Sys2Proof.Machine

variable {s t : State} {p q : Pin} {v b : Bool} {es es' : List Event} {m : ModelFault}

/-! The bits of the pins after a command (rules R15, R73). -/

theorem dirBit_completed (hr : s.Ready) (hq : s.params.present q = true) (es : List Event) (r : Reply) :
    (s.completed es r).dirBit q = bitAfter .dir q (s.dirBit q) es := dirBit_did hr hq es

theorem outBit_completed (hr : s.Ready) (hq : s.params.present q = true) (es : List Event) (r : Reply) :
    (s.completed es r).outBit q = bitAfter .out q (s.outBit q) es := outBit_did hr hq es

theorem samePins_completed (hr : s.Ready) {ds os : List Pin} (r : Reply)
    (hd : ∀ q ∉ ds, ∀ b, bitAfter .dir q b es = b) (ho : ∀ q ∉ os, ∀ b, bitAfter .out q b es = b) :
    s.SamePins (s.completed es r) ds os := fun q hq =>
  ⟨fun h => (dirBit_completed hr hq es r).trans (hd q h _),
    fun h => (outBit_completed hr hq es r).trans (ho q h _)⟩

theorem bitAfter_wDir (r : Reg) (q : Pin) (b : Bool) (p : Pin) (v : Bool) :
    bitAfter r q b [.wDir p v] = if r = .dir ∧ p = q then v else b := rfl

theorem bitAfter_wOut (r : Reg) (q : Pin) (b : Bool) (p : Pin) (v : Bool) :
    bitAfter r q b [.wOut p v] = if r = .out ∧ p = q then v else b := rfl

/-! The contention check after events (rules R53, R244, R246). -/

theorem shortAfter_did (s : State) (es es' : List Event) :
    (s.did es).ShortAfter es' ↔ s.ShortAfter (es ++ es') := by
  unfold State.ShortAfter
  rw [did_did]

theorem stoppedBy_did (s : State) (es es' : List Event) (m : ModelFault) :
    (s.did es).stoppedBy es' m = s.stoppedBy (es ++ es') m := by
  simp [State.stoppedBy, State.did, replay_append]

theorem stoppedBy_finish (s : State) (es : List Event) (m : ModelFault) (r : Reply) :
    (s.stoppedBy es m).finish r = s.stoppedBy es m :=
  finish_faulted (by simp [State.stoppedBy]) r

/-- The fault of rule R53 after events, from the bits of SDA before them. -/
theorem shortAfter_iff_bits (hr : s.Ready) (es : List Event) :
    s.ShortAfter es ↔ bitAfter .dir .sda (s.dirBit .sda) es = true ∧
      bitAfter .out .sda (s.outBit .sda) es = true ∧
      envPullsSda s.env s.params (s.trace ++ es) = true := by
  rw [shortAfter_iff, dirBit_did hr present_sda, outBit_did hr present_sda]

/-- A write of SDA's output bit as 0 shorts nothing (rule R246). -/
theorem wOut_low (hr : s.Ready) (p : Pin) : wOut p false s = s.did [.wOut p false] := by
  rw [wOut_eq hr.2.1, if_neg]
  rintro ⟨rfl, hs⟩
  obtain ⟨-, hout, -⟩ := (shortAfter_iff_bits hr _).1 hs
  simp [bitAfter_wOut] at hout

/-- pulse(p) shorts at most at its second write (rules R123, R246). -/
theorem pulseSeq_eq (hr : s.Ready) (hp : s.params.present p = true) :
    pulseSeq p s = if p = .sda ∧ s.ShortAfter [.wOut p false, .wOut p true]
      then s.stoppedBy [.wOut p false, .wOut p true] .sdaContention
      else s.did [.wOut p false, .wOut p true] := by
  rw [pulseSeq, if_pos hp, wOut_low hr, wOut_eq (s := s.did [.wOut p false]) hr.2.1]
  exact if_congr (and_congr_right' (shortAfter_did ..)) (stoppedBy_did ..) (did_did ..)

/-! The pin commands (rules R124 to R127). -/

theorem exec_setDir (hr : s.Ready) (hp : s.params.present p = true) (v : Bool) :
    exec (.setDir p v) s = .next ((wDir p v s).finish ⟨false, 0⟩) := by
  rw [exec, execSetDir, gate_of_ready hr, needPin_of_present hp]
  rfl

theorem exec_setLevel (hr : s.Ready) (hp : s.params.present p = true) (v : Bool) :
    exec (.setLevel p v) s = .next ((wOut p v s).finish ⟨false, 0⟩) := by
  rw [exec, execSetLevel, gate_of_ready hr, needPin_of_present hp]
  rfl

theorem exec_pulse (hr : s.Ready) (p : Pin) :
    exec (.pulse p) s = .next ((pulseSeq p s).finish ⟨false, 0⟩) := by
  rw [exec, execPulse, gate_of_ready hr]
  rfl

/-- Settles O30: the one write is no short. -/
theorem setDirCompletes : Obligations.SetDirCompletes := by
  intro s p v hr hp hno
  refine ⟨?_, ?_, samePins_completed hr _ (fun q hq b => ?_) (fun q _ b => ?_)⟩
  · rw [exec_setDir hr hp, wDir_eq hr.2.1, if_neg hno, finish_did hr.2.1]
  · simp [dirBit_completed hr hp, bitAfter_wDir]
  · rw [bitAfter_wDir, if_neg (fun h => hq (by simp [h.2]))]
  · rw [bitAfter_wDir, if_neg (by simp)]

/-- Settles O31, as for SET_DIR. -/
theorem setLevelCompletes : Obligations.SetLevelCompletes := by
  intro s p v hr hp hno
  refine ⟨?_, ?_, samePins_completed hr _ (fun q _ b => ?_) (fun q hq b => ?_)⟩
  · rw [exec_setLevel hr hp, wOut_eq hr.2.1, if_neg hno, finish_did hr.2.1]
  · simp [outBit_completed hr hp, bitAfter_wOut]
  · rw [bitAfter_wOut, if_neg (by simp)]
  · rw [bitAfter_wOut, if_neg (fun h => hq (by simp [h.2]))]

/-- RESULT of a Boolean reply (rule R98). -/
theorem resultWord_flag (b : Bool) : resultWord (.ofFlag b) = if b then 0x0100 else 0x0000 := by
  cases b <;> decide

/-- A command that only samples a pin (rules R126, R145). -/
theorem sample_finish (hm : s.mf = none) (p : Pin) :
    (sample p s).2.finish (.ofFlag (sample p s).1) = { s with
      result := if s.level p then 0x0100 else 0x0000
      trace := s.trace ++ [.sample p (s.level p), .cmdEnd (if s.level p then 0x0100 else 0x0000)] } := by
  rw [sample_eq hm, finish_did hm, State.completed, resultWord_flag]
  simp [replay_cons, replay_nil, writeOf]

/-- Settles O32: the sequence is one sample. -/
theorem getLevelCompletes : Obligations.GetLevelCompletes := by
  intro s p hr hp
  rw [exec, execGetLevel, gate_of_ready hr, needPin_of_present hp, sample_finish hr.2.1]

/-- Settles O33: the second write is no short. -/
theorem pulseCompletes : Obligations.PulseCompletes := by
  intro s p hr hp hno
  have hno : ¬ (p = .sda ∧ s.ShortAfter [.wOut p false, .wOut p true]) := by
    rintro ⟨rfl, hs⟩
    obtain ⟨hdir, -, hpull⟩ := (shortAfter_iff_bits hr _).1 hs
    rw [hno rfl hdir] at hpull
    cases hpull
  refine ⟨?_, ?_, samePins_completed hr _ (fun q _ b => ?_) (fun q hq b => ?_)⟩
  · rw [exec_pulse hr, pulseSeq_eq hr hp, if_neg hno, finish_did hr.2.1]
  · simp [outBit_completed hr hp, bitAfter]
  · simp [bitAfter]
  · have hpq : p ≠ q := fun h => hq (by simp [h])
    simp [bitAfter, hpq]

theorem needPin_of_absent (hp : s.params.present p = false) (k : Answer) :
    s.needPin p k = .next (s.errored 0xB000) := by
  simp only [State.needPin, hp]
  rfl

/-- Settles O34: PULSE has no event to do, and the three others meet the check of their pin first. -/
theorem absentPinOutcomes : Obligations.AbsentPinOutcomes := by
  intro s p v hs hp
  refine ⟨?_, (gate_of_takes hs _).trans (needPin_of_absent hp _),
    (gate_of_takes hs _).trans (needPin_of_absent hp _),
    (gate_of_takes hs _).trans (needPin_of_absent hp _)⟩
  have hseq : pulseSeq p s = s := if_neg (by simp [hp])
  rw [exec, execPulse, gate_of_takes hs, hseq, finish_of_unfaulted hs.2.1]
  rfl

/-- Settles O35: each of the three writes is a short, and nothing follows it. -/
theorem pinCommandContention : Obligations.PinCommandContention := by
  intro s hr
  have hm := hr.2.1
  refine ⟨fun hout hpull => ?_, fun hdir hpull => ?_, fun hdir hpull => ?_⟩
  · have hs : s.ShortAfter [.wDir .sda true] := (shortAfter_iff_bits hr _).2 ⟨rfl, hout, hpull⟩
    rw [exec_setDir hr present_sda, wDir_eq hm, if_pos ⟨rfl, hs⟩, stoppedBy_finish]
  · have hs : s.ShortAfter [.wOut .sda true] := (shortAfter_iff_bits hr _).2 ⟨hdir, rfl, hpull⟩
    rw [exec_setLevel hr present_sda, wOut_eq hm, if_pos ⟨rfl, hs⟩, stoppedBy_finish]
  · have hs : s.ShortAfter [.wOut .sda false, .wOut .sda true] :=
      (shortAfter_iff_bits hr _).2 ⟨hdir, rfl, hpull⟩
    rw [exec_pulse hr, pulseSeq_eq hr present_sda, if_pos ⟨rfl, hs⟩, stoppedBy_finish]

/-! The signal commands (rules R140 to R146). -/

theorem exec_driveSda (hr : s.Ready) (b : Bool) :
    exec (.driveSda b) s = .next ((driveSdaSeq b s).finish ⟨false, 0⟩) := by
  rw [exec, execDriveSda, gate_of_ready hr]
  rfl

/-- drive_sda(b) where its driven-high window meets no pull (rules R141, R143). -/
theorem driveSda_did (hr : s.Ready) (b : Bool)
    (hno : b = false → s.outBit .sda = true →
      envPullsSda s.env s.params (s.trace ++ [.wDir .sda true]) = false) :
    driveSdaSeq b s = s.did (sdaEvents b) := by
  cases b with
  | true => exact driveSda_release hr
  | false =>
    rw [driveSda_low hr, if_neg]
    rintro ⟨hout, hpull⟩
    exact absurd (hpull.symm.trans (hno rfl hout)) (by decide)

theorem bitAfter_sda_other (r : Reg) (hq : q ≠ .sda) (b v : Bool) :
    bitAfter r q b (sdaEvents v) = b := by
  simp [sdaEvents, bitAfter, hq.symm]

/-- Settles O36: drive_sda(b) does its two events, which write SDA's bits alone. -/
theorem driveSdaCompletes : Obligations.DriveSdaCompletes := by
  intro s b hr hno
  have hne {q : Pin} (hq : q ∉ [Pin.sda]) : q ≠ .sda := by simpa using hq
  refine ⟨?_, (dirBit_completed hr present_sda _ _).trans (bitAfter_sda_dir _ b),
    (outBit_completed hr present_sda _ _).trans (bitAfter_sda_out _ b),
    samePins_completed hr _ (fun q hq x => bitAfter_sda_other .dir (hne hq) x b)
      (fun q hq x => bitAfter_sda_other .out (hne hq) x b)⟩
  rw [exec_driveSda hr, driveSda_did hr b hno, finish_did hr.2.1]
  rfl

/-- Nothing follows a model fault in stop_seq (rules R163, R244). -/
theorem stopSeq_of_short (h : driveSdaSeq false s = s.stoppedBy es .sdaContention) :
    stopSeq s = s.stoppedBy es .sdaContention := by
  rw [stopSeq, h]
  exact (moved_trans (moved_scl true _) (moved_sda true _)).faulted (by simp [State.stoppedBy])

theorem exec_stop (hr : s.Ready) (hd : s.delaySet = true) :
    exec .stop s = .next ((stopSeq s).finish ⟨false, 0⟩) := by
  rw [exec, execStop, gate_of_ready hr, State.needDelay, if_pos hd]
  rfl

/-- Settles O37: the first write of drive_sda(0) is the short, and nothing follows it. -/
theorem driveLowContention : Obligations.DriveLowContention := by
  intro s hr hout hpull
  have hlow : driveSdaSeq false s = s.stoppedBy [.wDir .sda true] .sdaContention := by
    rw [driveSda_low hr, if_pos ⟨hout, hpull⟩]
  refine ⟨?_, fun hd => ?_⟩
  · rw [exec_driveSda hr, hlow, stoppedBy_finish]
  · rw [exec_stop hr hd, stopSeq_of_short hlow, stoppedBy_finish]

/-- Settles O38: the sequence is one sample, of the level of SDA. -/
theorem readSdaCompletes : Obligations.ReadSdaCompletes := by
  intro s hr
  refine ⟨s.level .sda, ?_, level_sda_of_output, level_sda_of_input⟩
  rw [exec, execReadSda, gate_of_ready hr, readSdaSeq, sample_finish hr.2.1]

theorem exec_driveScl (hr : s.Ready) (hd : s.delaySet = true) (b : Bool) :
    exec (.driveScl b) s = .next (s.completed (sclEvents s.cfgDelay b) ⟨false, 0⟩) := by
  rw [exec, execDriveScl, gate_of_ready hr, State.needDelay, if_pos hd, driveScl_did hr.2.1,
    finish_did hr.2.1]
  rfl

/-- Settles O39: the wait and the write meet no fault, and the write is of SCL's output bit alone. -/
theorem driveSclCompletes : Obligations.DriveSclCompletes := by
  intro s b hr hd
  refine ⟨exec_driveScl hr hd b, ?_, samePins_completed hr _ (fun q _ x => ?_) (fun q hq x => ?_)⟩
  · exact (outBit_completed hr present_scl _ _).trans
      ((bitAfter_sclEvents .out .scl _ s.cfgDelay b).trans (if_pos ⟨rfl, rfl⟩))
  · exact (bitAfter_sclEvents .dir q x s.cfgDelay b).trans (by simp)
  · have hq : Pin.scl ≠ q := fun h => hq (by simp [h])
    exact (bitAfter_sclEvents .out q x s.cfgDelay b).trans (by simp [hq])

end Sys2Proof.Machine
end

section
/-! The protocol commands (rules R161 to R166): their completion, the bits of the pins they leave, the model
faults they can raise and the delays they take. -/

namespace Sys2Proof.Machine

variable {s t : State} {p q : Pin} {r : Reg} {b v : Bool} {c : Params} {d : Word} {i : Instr}
  {es es' : List Event}

/-! The bits after a sequence (rule R168). -/

/-- The bits of the pins after a sequence that releases SDA with its output bit 1 and leaves SCL's output bit
at `level`: all other bits are as they were (rule R168). -/
def releasedBits (level : Bool) : Reg → Pin → Bool → Bool
  | .dir, .sda, _ => false
  | .out, .sda, _ => true
  | .out, .scl, _ => level
  | _, _, b => b

theorem bitAfter_sdaEvents (r : Reg) (q : Pin) (b v : Bool) :
    bitAfter r q b (sdaEvents v) = if q = .sda then (match r with | .dir => !v | .out => v) else b := by
  by_cases hq : q = .sda
  · subst hq
    cases r
    · exact bitAfter_sda_dir b v
    · exact bitAfter_sda_out b v
  · rw [bitAfter_sda_other r hq, if_neg hq]

/-- Repeated parts that only write what the rest of the sequence writes again (rules R164, R165). -/
theorem releasedBits_flatMap {α : Type} {f : α → List Event}
    (hf : ∀ x b, releasedBits v r q (bitAfter r q b (f x)) = releasedBits v r q b) (xs : List α)
    (b : Bool) :
    releasedBits v r q (bitAfter r q b (xs.flatMap f)) = releasedBits v r q b := by
  induction xs generalizing b with
  | nil => rfl
  | cons x xs ih => rw [List.flatMap_cons, bitAfter_append, ih, hf]

theorem bitAfter_stopEvents (r : Reg) (q : Pin) (b : Bool) (d : Word) :
    bitAfter r q b (stopEvents d) = releasedBits true r q b := by
  simp only [stopEvents, bitAfter_append, bitAfter_sdaEvents, bitAfter_sclEvents]
  cases r <;> cases q <;> rfl

/-- From a sequence that ends with SDA's release and one pulse of SCL. -/
theorem bitAfter_writeByteEvents (r : Reg) (q : Pin) (b : Bool) (d : Word) (x : Byte) (sampled : Bool) :
    bitAfter r q b (writeByteEvents d x sampled) = releasedBits false r q b := by
  have hbits : ∀ (i : Nat) (b : Bool), releasedBits false r q
      (bitAfter r q b (writeBitEvents d (x.getLsbD i))) = releasedBits false r q b := fun i b => by
    simp only [writeBitEvents, bitAfter_append, bitAfter_sdaEvents, bitAfter_sclEvents]
    cases r <;> cases q <;> rfl
  have hend : ∀ b, bitAfter r q b (sdaEvents true ++ sclEvents d true ++ [.sample .sda sampled]
      ++ sclEvents d false) = releasedBits false r q b := fun b => by
    simp only [bitAfter_append, bitAfter_sdaEvents, bitAfter_sclEvents, bitAfter]
    cases r <;> cases q <;> rfl
  have hsplit : writeByteEvents d x sampled = sclEvents d false ++
      [7, 6, 5, 4, 3, 2, 1, 0].flatMap (fun i => writeBitEvents d (x.getLsbD i)) ++
      (sdaEvents true ++ sclEvents d true ++ [.sample .sda sampled] ++ sclEvents d false) := by
    simp only [writeByteEvents, writeHeadEvents, List.append_assoc]
  rw [hsplit, bitAfter_append, hend, bitAfter_append, releasedBits_flatMap hbits, bitAfter_sclEvents]
  cases r <;> cases q <;> rfl

theorem bitAfter_readByteEvents (r : Reg) (q : Pin) (b : Bool) (d : Word) (bs : List Bool) (last : Bool) :
    bitAfter r q b (readByteEvents d bs last) = releasedBits last r q b := by
  have hbits : ∀ x b, releasedBits last r q (bitAfter r q b (readBitEvents d x)) =
      releasedBits last r q b := fun x b => by
    simp only [readBitEvents, bitAfter_append, bitAfter_sclEvents, bitAfter]
    cases r <;> cases q <;> rfl
  have hend : ∀ b, bitAfter r q b (sdaEvents last ++ sclEvents d true ++ sclEvents d false
      ++ (if last then stopEvents d else sdaEvents true)) = releasedBits last r q b := fun b => by
    cases last <;>
      simp only [bitAfter_append, bitAfter_sdaEvents, bitAfter_sclEvents, bitAfter_stopEvents, if_true,
        if_false, Bool.false_eq_true] <;>
      cases r <;> cases q <;> rfl
  have hsplit : readByteEvents d bs last = bs.flatMap (readBitEvents d) ++ (sdaEvents last ++
      sclEvents d true ++ sclEvents d false ++ (if last then stopEvents d else sdaEvents true)) := by
    simp only [readByteEvents, List.append_assoc]
  rw [hsplit, bitAfter_append, hend, releasedBits_flatMap hbits]

/-- Of the pins but SDA and SCL, START's head writes TRIGGER's output bit alone (rule R162). -/
theorem bitAfter_startEvents (r : Reg) (q : Pin) (b : Bool) (c : Params) (d : Word) (a : Byte)
    (sampled : Bool) : bitAfter r q b (startEvents c d a sampled) =
      if r = .out ∧ q = .trigger ∧ c.present .trigger = true then true else releasedBits false r q b := by
  rw [startEvents, bitAfter_append, bitAfter_writeByteEvents]
  simp only [startHeadEvents, pulseEvents, bitAfter_append, bitAfter_sclEvents, bitAfter_sdaEvents]
  cases hp : c.present .trigger <;> cases r <;> cases q <;> rfl

theorem bitAfter_isPresentEvents (r : Reg) (q : Pin) (b : Bool) (c : Params) (d : Word) (a : Byte)
    (sampled : Bool) : bitAfter r q b (isPresentEvents c d a sampled) =
      if r = .out ∧ q = .trigger ∧ c.present .trigger = true then true else releasedBits true r q b := by
  rw [isPresentEvents, bitAfter_append, bitAfter_stopEvents, bitAfter_startEvents]
  cases hp : c.present .trigger <;> cases r <;> cases q <;> rfl

theorem bitAfter_initPinEvents (r : Reg) (q : Pin) (b : Bool) (c : Params) (p : Pin) :
    bitAfter r q b (initPinEvents c p) = if p = q ∧ c.present p = true then true else b := by
  unfold initPinEvents
  cases hp : c.present p <;> cases r <;> by_cases hq : p = q <;> simp [bitAfter, hq]

/-- The bits after INIT: SDA released, every other present pin a high output (rule R161). -/
theorem bitAfter_initEvents (r : Reg) (q : Pin) (b : Bool) (hq : c.present q = true) (d : Word) :
    bitAfter r q b (initEvents c d) = !(r == .dir && q == .sda) := by
  simp only [initEvents, bitAfter_append, bitAfter_initPinEvents, bitAfter_sclEvents, bitAfter_wDir,
    bitAfter_sdaEvents]
  cases q <;> cases r <;> simp [hq]

/-- The bits of the pins after the events of a command that ended without a model fault. -/
theorem bits_of_replay (hr : s.Ready) (hp : t.params = s.params) (hg : t.gpio = replay s.params s.gpio es) :
    (∀ q, s.params.present q = true → t.dirBit q = bitAfter .dir q (s.dirBit q) es) ∧
      ∀ q, s.params.present q = true → t.outBit q = bitAfter .out q (s.outBit q) es := by
  have hbit : ∀ r q, regBit t.params t.gpio r q = regBit s.params (s.did es).gpio r q := fun r q => by
    rw [hp, hg]; rfl
  exact ⟨fun q hq => (hbit .dir q).trans (dirBit_did hr hq es),
    fun q hq => (hbit .out q).trans (outBit_did hr hq es)⟩

/-- The bits of the present pins at the end of INIT (rule R161). -/
theorem init_end (hr : s.Ready) (hp : t.params = s.params)
    (hg : t.gpio = replay s.params s.gpio (initEvents s.params s.cfgDelay)) (hq : s.params.present q = true) :
    (t.dirBit q = !(q == .sda)) ∧ t.outBit q = true := by
  obtain ⟨hdir, hout⟩ := bits_of_replay hr hp hg
  exact ⟨(hdir q hq).trans (bitAfter_initEvents .dir q _ hq _),
    (hout q hq).trans (bitAfter_initEvents .out q _ hq _)⟩

/-! Completion, or the first contention. -/

/-- Settles O40: INIT has no driven-high window, and its writes fix the bits of all four pins. -/
theorem initCompletes : Obligations.InitCompletes := by
  intro s hr hd t
  have hbits {q : Pin} := init_end (q := q) (t := t) hr rfl rfl
  obtain ⟨hsda, hsdao⟩ := hbits present_sda
  obtain ⟨hscl, hsclo⟩ := hbits present_scl
  refine ⟨?_, ⟨hsda, hsdao, hscl, hsclo⟩, hbits, hbits⟩
  rw [exec, execInit, gate_of_ready hr, State.needDelay, if_pos hd, init_did hr, finish_did hr.2.1]
  rfl

/-- A command whose meaning is a run of events: it completes where these are quiet, and else stops at their
first short (rules R244, R247, R249). -/
theorem exec_run_outcomes {reply : Reply} (hm : s.mf = none)
    (he : exec i s = .next ((s.run es).finish reply)) :
    (s.QuietAlong es → exec i s = .next (s.completed es reply)) ∧
      ∀ h, s.FirstShort es h → exec i s = .next (s.stoppedBy h .sdaContention) := by
  obtain ⟨hquiet, hshort⟩ := run_finish hm es reply
  exact ⟨fun hq => he.trans (congrArg _ (hquiet hq)), fun h hs => he.trans (congrArg _ (hshort h hs))⟩

/-- Settles O41: START is the run of its events. -/
theorem startCompletes : Obligations.StartCompletes := fun _ a hr hd =>
  exec_run_outcomes hr.2.1 (exec_start_run hr hd a)

/-- Settles O42: drive_sda(0) meets no pull, and drive_sda(1) has no driven-high window. -/
theorem stopCompletes : Obligations.StopCompletes := by
  intro s hr hd hno
  rw [exec_stop hr hd, stopSeq, driveSda_did hr false (fun _ => hno), driveScl_after hr.2.1,
    driveSda_release (ready_after hr _), did_did, finish_did hr.2.1]
  rfl

/-- Settles O43: WRITE_BYTE is the run of its events. -/
theorem writeByteCompletes : Obligations.WriteByteCompletes := fun _ d hr hd =>
  exec_run_outcomes hr.2.1 (exec_writeByte_run hr hd d)

/-- Settles O44: READ_BYTE is the run of its events, with the samples its loop takes. -/
theorem readByteCompletes : Obligations.ReadByteCompletes := fun _ last hr hd =>
  exec_run_outcomes hr.2.1 (exec_readByte_run hr hd last)

/-- Settles O45: IS_PRESENT is the run of START's events, then STOP's. -/
theorem isPresentCompletes : Obligations.IsPresentCompletes := fun _ hr hd ha =>
  exec_run_outcomes hr.2.1 (exec_isPresent_run hr hd ha)

/-! The end states (rule R168). -/

/-- A command that leaves the bits of `releasedBits`, but for the output bits of `also`. -/
theorem released_end (hr : s.Ready) (hscl : s.dirBit .scl = true) (hp : t.params = s.params)
    (hg : t.gpio = replay s.params s.gpio es) {level : Bool} {also : List Pin} (hsda : Pin.sda ∉ also)
    (hsclo : Pin.scl ∉ also)
    (hb : ∀ r q b, (r = .out → q ∉ also) → bitAfter r q b es = releasedBits level r q b) :
    (t.dirBit .sda = false ∧ t.outBit .sda = true ∧ t.dirBit .scl = true ∧ t.outBit .scl = level) ∧
      s.SamePins t [.sda] (.sda :: .scl :: also) := by
  obtain ⟨hdir, hout⟩ := bits_of_replay hr hp hg
  refine ⟨⟨?_, ?_, ?_, ?_⟩, fun q hq => ⟨fun hno => ?_, fun hno => ?_⟩⟩
  · rw [hdir _ present_sda, hb _ _ _ (by simp)]; rfl
  · rw [hout _ present_sda, hb _ _ _ (fun _ => hsda)]; rfl
  · rw [hdir _ present_scl, hb _ _ _ (by simp), hscl]; rfl
  · rw [hout _ present_scl, hb _ _ _ (fun _ => hsclo)]; rfl
  · rw [hdir _ hq, hb _ _ _ (by simp)]
    cases q <;> simp at hno <;> rfl
  · simp only [List.mem_cons, not_or] at hno
    obtain ⟨h1, h2, h3⟩ := hno
    rw [hout _ hq, hb _ _ _ (fun _ => h3)]
    cases q <;> simp at h1 h2 <;> rfl

/-- Settles O46: each command's events leave SDA released, SCL at its level and the rest as it was, but for
TRIGGER's output bit after START and IS_PRESENT. -/
theorem protocolEndStates : Obligations.ProtocolEndStates := by
  intro s t i hr hscl he hm
  obtain ⟨hp, es, hes, -, hg⟩ := exec_done hr he hm
  have hend {level : Bool} {also : List Pin} :=
    released_end (level := level) (also := also) hr hscl hp hg
  refine ⟨?_, ?_, ?_, ?_, ?_⟩
  · rintro a rfl
    obtain ⟨sampled, rfl⟩ := hes
    refine hend (also := [.trigger]) (by decide) (by decide) fun r q b h => ?_
    rw [bitAfter_startEvents, if_neg (fun ⟨h1, h2, _⟩ => h h1 (by simp [h2]))]
  · rintro d (rfl | rfl)
    · obtain ⟨sampled, rfl⟩ := hes
      exact hend (also := []) (by decide) (by decide) fun r q b _ => bitAfter_writeByteEvents ..
    · obtain ⟨bs, -, rfl⟩ := hes
      exact hend (also := []) (by decide) (by decide) fun r q b _ => bitAfter_readByteEvents ..
  · rintro rfl
    subst hes
    obtain ⟨hsda, hsdao⟩ := init_end hr hp hg present_sda
    obtain ⟨hscl, hsclo⟩ := init_end hr hp hg present_scl
    exact ⟨hsda, hsdao, hscl, hsclo⟩
  · rintro (rfl | rfl)
    · subst hes
      exact hend (also := []) (by decide) (by decide) fun r q b _ => bitAfter_stopEvents ..
    · obtain ⟨bs, -, rfl⟩ := hes
      exact hend (also := []) (by decide) (by decide) fun r q b _ => bitAfter_readByteEvents ..
  · rintro rfl
    obtain ⟨sampled, rfl⟩ := hes
    refine hend (also := [.trigger]) (by decide) (by decide) fun r q b h => ?_
    rw [bitAfter_isPresentEvents, if_neg (fun ⟨h1, h2, _⟩ => h h1 (by simp [h2]))]

/-! The contention fault (rules R53, R246). -/

/-- A command whose sequence raises no contention fault raises none in the check before it. -/
theorem needDelay_noContention {k : Answer} (hk : k = .next t → t.mf ≠ some .sdaContention)
    (h : s.needDelay k = .next t) : t.mf ≠ some .sdaContention := by
  unfold State.needDelay at h
  split at h
  · exact hk h
  · cases h; simp

theorem needPin_noContention {k : Answer} (hm : s.mf = none)
    (hk : k = .next t → t.mf ≠ some .sdaContention) (h : s.needPin p k = .next t) :
    t.mf ≠ some .sdaContention := by
  unfold State.needPin at h
  split at h
  · exact hk h
  · cases h; simp [State.commandError, hm]

theorem finish_noContention {m : State} {reply : Reply} (hm : m.mf = none)
    (h : (.next (m.finish reply) : Answer) = .next t) : t.mf ≠ some .sdaContention := by
  cases h
  simp [hm]

theorem pulseSeq_other_mf (hr : s.Ready) (hp : p ≠ .sda) : (pulseSeq p s).mf = none := by
  cases hpres : s.params.present p
  · rw [pulseSeq, if_neg (by simp [hpres]), hr.2.1]
  · rw [pulseSeq_eq hr hpres, if_neg (fun h => hp h.1)]
    exact hr.2.1

/-- Settles O47: none of these sequences has a write that can short SDA. -/
theorem commandsWithoutContention : Obligations.CommandsWithoutContention := by
  intro s t i hr he hi
  have hm := hr.2.1
  have hdid : ∀ es, (s.did es).mf = none := fun _ => hm
  obtain hi | ⟨b, rfl⟩ | ⟨p, rfl⟩ | ⟨p, hp, rfl | ⟨v, rfl | rfl⟩⟩ := hi
  · simp only [List.mem_cons, List.not_mem_nil, or_false] at hi
    obtain rfl | rfl | rfl := hi <;> have h := (gate_next he).2.2.2
    · exact needDelay_noContention (finish_noContention (init_did hr ▸ hdid _)) h
    · rw [readSdaSeq, sample_eq hm] at h
      exact finish_noContention (hdid _) h
    · exact finish_noContention (driveSda_release hr ▸ hdid _) h
  all_goals have h := (gate_next he).2.2.2
  · exact needDelay_noContention (finish_noContention (driveScl_did hm b ▸ hdid _)) h
  · rw [sample_eq hm] at h
    exact needPin_noContention hm (finish_noContention (hdid _)) h
  · exact finish_noContention (pulseSeq_other_mf hr hp) h
  · exact needPin_noContention hm (finish_noContention (wDir_other hm hp ▸ hdid _)) h
  · exact needPin_noContention hm (finish_noContention (wOut_other hm hp ▸ hdid _)) h

/-- Settles O48: only a command's sequence raises this fault, and it does so at its last event. -/
theorem contentionIsAtAWindow : Obligations.ContentionIsAtAWindow := by
  intro s t i he ht
  obtain ⟨-, hm, -, hend⟩ := exec_next he
  cases hend with
  | finished m reply moved =>
    rw [finish_mf] at ht
    have hmm : m.mf ≠ none := by simp [ht]
    obtain ⟨-, hdir, hout, hpull, hevents⟩ := moved.shorted hm hmm
    rw [finish_faulted hmm]
    exact ⟨moved.result, hdir, hout, hpull, hevents⟩
  | unconfigured => cases ht
  | absentPin => rw [State.commandError, State.emit_mf, State.setResult_mf, hm] at ht; cases ht

/-! The delays (rules R175, R257, R294). -/

theorem delayTotal_append (es es' : List Event) :
    delayTotal (es ++ es') = delayTotal es + delayTotal es' := by
  induction es with
  | nil => exact (Nat.zero_add _).symm
  | cons e es ih => cases e <;> simp only [List.cons_append, delayTotal, ih, Nat.add_assoc]

theorem delayTotal_flatMap {α : Type} {f : α → List Event} {n : Nat} (hf : ∀ x, delayTotal (f x) = n)
    (xs : List α) : delayTotal (xs.flatMap f) = xs.length * n := by
  induction xs with
  | nil => exact (Nat.zero_mul n).symm
  | cons x xs ih =>
    rw [List.flatMap_cons, delayTotal_append, ih, hf, List.length_cons, Nat.succ_mul, Nat.add_comm]

@[simp] theorem delayTotal_sdaEvents (v : Bool) : delayTotal (sdaEvents v) = 0 := rfl

@[simp] theorem delayTotal_sclEvents (d : Word) (v : Bool) : delayTotal (sclEvents d v) = d.toNat := by
  unfold sclEvents
  split
  · simp_all [delayTotal]
  · rfl

@[simp] theorem delayTotal_pulseEvents (c : Params) (p : Pin) : delayTotal (pulseEvents c p) = 0 := by
  unfold pulseEvents
  split <;> rfl

@[simp] theorem delayTotal_initPinEvents (c : Params) (p : Pin) :
    delayTotal (initPinEvents c p) = 0 := by
  unfold initPinEvents
  split <;> rfl

@[simp] theorem delayTotal_stopEvents (d : Word) : delayTotal (stopEvents d) = d.toNat := by
  simp [stopEvents, delayTotal_append]

@[simp] theorem delayTotal_writeByteEvents (d : Word) (x : Byte) (sampled : Bool) :
    delayTotal (writeByteEvents d x sampled) = 19 * d.toNat := by
  have hbit : ∀ i, delayTotal (writeBitEvents d (x.getLsbD i)) = 2 * d.toNat := fun i => by
    simp only [writeBitEvents, delayTotal_append, delayTotal_sdaEvents, delayTotal_sclEvents]
    omega
  simp only [writeByteEvents, writeHeadEvents, delayTotal_append, delayTotal_flatMap hbit,
    delayTotal_sdaEvents, delayTotal_sclEvents, delayTotal, List.length_cons, List.length_nil]
  omega

@[simp] theorem delayTotal_startEvents (c : Params) (d : Word) (a : Byte) (sampled : Bool) :
    delayTotal (startEvents c d a sampled) = c.startSettleUs + 20 * d.toNat := by
  simp only [startEvents, startHeadEvents, delayTotal_append, delayTotal_pulseEvents, delayTotal,
    delayTotal_sclEvents, delayTotal_sdaEvents, delayTotal_writeByteEvents]
  omega

theorem delayTotal_readByteEvents (d : Word) {bs : List Bool} (hb : bs.length = 8) (last : Bool) :
    delayTotal (readByteEvents d bs last) = (if last then 19 else 18) * d.toNat := by
  have hbit : ∀ x, delayTotal (readBitEvents d x) = 2 * d.toNat := fun x => by
    simp only [readBitEvents, delayTotal_append, delayTotal, delayTotal_sclEvents]
    omega
  simp only [readByteEvents, delayTotal_append, delayTotal_flatMap hbit, hb, delayTotal_sdaEvents,
    delayTotal_sclEvents]
  cases last
  · simp; omega
  · simp; omega

/-- Settles O52: the sum over each command's events, where CmdEnd adds nothing. -/
theorem commandDelays : Obligations.CommandDelays := by
  intro s t i hr he hm
  obtain ⟨-, es, hes, htrace, -⟩ := exec_done hr he hm
  refine ⟨es ++ [.cmdEnd t.result], by rw [htrace, List.append_assoc], ?_⟩
  rw [delayTotal_append, show delayTotal [.cmdEnd t.result] = 0 from rfl, Nat.add_zero]
  cases i with
  | init => subst hes; simp [initEvents, delayTotal_append, delayTotal]
  | start a => obtain ⟨sampled, rfl⟩ := hes; exact delayTotal_startEvents ..
  | stop => subst hes; exact delayTotal_stopEvents _
  | writeByte x => obtain ⟨sampled, rfl⟩ := hes; exact delayTotal_writeByteEvents ..
  | readByte last => obtain ⟨bs, hb, rfl⟩ := hes; exact delayTotal_readByteEvents _ hb last
  | isPresent =>
    obtain ⟨sampled, rfl⟩ := hes
    rw [isPresentEvents, delayTotal_append, delayTotal_startEvents, delayTotal_stopEvents]
    simp only
    omega
  | driveSda b => subst hes; rfl
  | readSda => obtain ⟨b, rfl⟩ := hes; rfl
  | driveScl b => subst hes; exact delayTotal_sclEvents _ b
  | setDir p v => obtain rfl | rfl := hes <;> rfl
  | setLevel p v => obtain rfl | rfl := hes <;> rfl
  | getLevel p => obtain ⟨b, rfl⟩ | rfl := hes <;> rfl
  | pulse p => subst hes; exact delayTotal_pulseEvents _ p

end Sys2Proof.Machine
end

section
/-! The wire (rules R47, R56, R76, R170, R171): the edges a sequence puts on the bus, from the four bits of
SDA and SCL alone. -/

namespace Sys2Proof.Machine

variable {s t : State} {c : Params} {g : Gpio} {es es' : List Event}

/-! The edges of a bus view (rule R56). -/

/-- What a receiver sees between two pairs of a bus view: a START, a STOP, or a rising edge of SCL with the
level of msda at it (rules R56, R170, R171). -/
inductive BusEdge where
  | start
  | stop
  | rise (b : Bool)

/-- The edge from one pair (msda, mscl) to the next. -/
def edgeOf (a b : Bool × Bool) : List BusEdge :=
  if a.2 && b.2 then (if a.1 && !b.1 then [.start] else if !a.1 && b.1 then [.stop] else [])
  else if !a.2 && b.2 then [.rise b.1] else []

/-- The edges of a bus view that follows a first pair. -/
def edgesIn : Bool × Bool → List (Bool × Bool) → List BusEdge
  | _, [] => []
  | a, b :: bs => edgeOf a b ++ edgesIn b bs

def BusEdge.isStart : BusEdge → Bool
  | .start => true
  | .stop | .rise _ => false

def BusEdge.isStop : BusEdge → Bool
  | .stop => true
  | .start | .rise _ => false

def BusEdge.bit : BusEdge → Option Bool
  | .rise b => some b
  | .start | .stop => none

theorem startsIn_eq (a : Bool × Bool) (bs : List (Bool × Bool)) :
    startsIn a bs = (edgesIn a bs).countP BusEdge.isStart := by
  induction bs generalizing a with
  | nil => rfl
  | cons b bs ih =>
    rw [startsIn, edgesIn, List.countP_append, ih]
    congr 1
    obtain ⟨⟨a1, a2⟩, b1, b2⟩ := a, b
    revert a1 a2 b1 b2
    decide

theorem stopsIn_eq (a : Bool × Bool) (bs : List (Bool × Bool)) :
    stopsIn a bs = (edgesIn a bs).countP BusEdge.isStop := by
  induction bs generalizing a with
  | nil => rfl
  | cons b bs ih =>
    rw [stopsIn, edgesIn, List.countP_append, ih]
    congr 1
    obtain ⟨⟨a1, a2⟩, b1, b2⟩ := a, b
    revert a1 a2 b1 b2
    decide

theorem bitsAtRises_eq (a : Bool × Bool) (bs : List (Bool × Bool)) :
    bitsAtRises a bs = (edgesIn a bs).filterMap BusEdge.bit := by
  induction bs generalizing a with
  | nil => rfl
  | cons b bs ih =>
    rw [bitsAtRises, edgesIn, List.filterMap_append, ih]
    congr 1
    obtain ⟨⟨a1, a2⟩, b1, b2⟩ := a, b
    revert a1 a2 b1 b2
    decide

/-! The four bits the bus view is made of (rule R47). -/

/-- The direction and output bits of SDA and SCL. -/
structure Wires where
  sdaDir : Bool
  sdaOut : Bool
  sclDir : Bool
  sclOut : Bool

/-- The four bits of a register file. -/
def wiresOf (c : Params) (g : Gpio) : Wires :=
  ⟨regBit c g .dir .sda, regBit c g .out .sda, regBit c g .dir .scl, regBit c g .out .scl⟩

/-- The pair (msda, mscl) (rule R47). -/
def Wires.lines (w : Wires) : Bool × Bool := (!w.sdaDir || w.sdaOut, !w.sclDir || w.sclOut)

/-- The four bits after an event. -/
def Wires.after (w : Wires) : Event → Wires
  | .wDir .sda v => { w with sdaDir := v }
  | .wOut .sda v => { w with sdaOut := v }
  | .wDir .scl v => { w with sclDir := v }
  | .wOut .scl v => { w with sclOut := v }
  | _ => w

/-- The edges that events put on the bus. -/
def Wires.edges (w : Wires) : List Event → List BusEdge
  | [] => []
  | e :: es => edgeOf w.lines (w.after e).lines ++ (w.after e).edges es

theorem lines_wiresOf (c : Params) (g : Gpio) : (wiresOf c g).lines = (msda c g, mscl c g) := by
  unfold wiresOf Wires.lines msda mscl drive driveOf
  cases regBit c g .dir .sda <;> cases regBit c g .out .sda <;> cases regBit c g .dir .scl <;>
    cases regBit c g .out .scl <;> rfl

theorem wiresOf_writeOf (hc : paramsOk c = true) (hg : gpioOk c g = true) (e : Event) :
    wiresOf c (writeOf c g e) = (wiresOf c g).after e := by
  cases e with
  | wDir p v =>
    cases p <;> simp [wiresOf, writeOf, Wires.after, regBit_rmw_any hc hg present_sda,
      regBit_rmw_any hc hg present_scl]
  | wOut p v =>
    cases p <;> simp [wiresOf, writeOf, Wires.after, regBit_rmw_any hc hg present_sda,
      regBit_rmw_any hc hg present_scl]
  | cmdBegin _ | sample _ _ | delay _ | cmdEnd _ => rfl

/-- The bus view of events is that of the four bits. -/
theorem edgesIn_busView (hc : paramsOk c = true) (hg : gpioOk c g = true) (es : List Event) :
    edgesIn (msda c g, mscl c g) (busView c g es) = (wiresOf c g).edges es := by
  induction es generalizing g with
  | nil => rfl
  | cons e es ih =>
    rw [busView, edgesIn, ih (gpioOk_event hc hg e), Wires.edges, ← wiresOf_writeOf hc hg,
      lines_wiresOf, lines_wiresOf]

/-- From these bits, these events put these edges on the bus and leave those bits. -/
def Drives (w : Wires) (es : List Event) (xs : List BusEdge) (w' : Wires) : Prop :=
  w.edges es = xs ∧ es.foldl Wires.after w = w'

theorem drives_append {w w' w'' : Wires} {xs xs' : List BusEdge} (h : Drives w es xs w')
    (h' : Drives w' es' xs' w'') : Drives w (es ++ es') (xs ++ xs') w'' := by
  obtain ⟨hx, hw⟩ := h
  obtain ⟨hx', hw'⟩ := h'
  refine ⟨?_, by rw [List.foldl_append, hw, hw']⟩
  rw [← hx, ← hx', ← hw]
  clear hx hw hx' hw'
  induction es generalizing w with
  | nil => rfl
  | cons e es ih => rw [List.cons_append, Wires.edges, ih, Wires.edges, List.append_assoc, List.foldl_cons]

/-- The bus view of the events a command appended, from their edges; CmdEnd makes none. -/
theorem view_of_drives (hr : s.Ready) {xs : List BusEdge} {w w' : Wires}
    (hw : wiresOf s.params s.gpio = w) (h : Drives w es xs w') (v : Word) :
    startsIn s.lines (s.viewOf (es ++ [Event.cmdEnd v])) = xs.countP BusEdge.isStart ∧
      stopsIn s.lines (s.viewOf (es ++ [Event.cmdEnd v])) = xs.countP BusEdge.isStop ∧
      bitsAtRises s.lines (s.viewOf (es ++ [Event.cmdEnd v])) = xs.filterMap BusEdge.bit := by
  have hend : Drives w' [Event.cmdEnd v] [] w' := by
    obtain ⟨x, y, z, u⟩ := w'
    cases x <;> cases y <;> cases z <;> cases u <;> exact ⟨rfl, rfl⟩
  obtain ⟨hx, -⟩ := drives_append h hend
  rw [List.append_nil] at hx
  obtain ⟨-, -, hc, hg⟩ := hr
  rw [startsIn_eq, stopsIn_eq, bitsAtRises_eq, State.lines, State.viewOf, edgesIn_busView hc hg, hw, hx]
  exact ⟨rfl, rfl, rfl⟩

/-! The edges of the procedures, with SCL an output (rules R140, R141). -/

section
variable (d : Word) (x y z b : Bool)

theorem drives_sclHigh :
    Drives ⟨x, y, true, z⟩ (sclEvents d true) (if z then [] else [.rise (!x || y)]) ⟨x, y, true, true⟩ := by
  unfold sclEvents
  split <;> cases x <;> cases y <;> cases z <;> exact ⟨rfl, rfl⟩

theorem drives_sclLow : Drives ⟨x, y, true, z⟩ (sclEvents d false) [] ⟨x, y, true, false⟩ := by
  unfold sclEvents
  split <;> cases x <;> cases y <;> cases z <;> exact ⟨rfl, rfl⟩

/-- SDA may change while SCL is low. -/
theorem drives_sda : Drives ⟨x, y, true, false⟩ (sdaEvents b) [] ⟨!b, b, true, false⟩ := by
  cases x <;> cases y <;> cases b <;> exact ⟨rfl, rfl⟩

/-- drive_sda(0) from a released SDA: a START where SCL is high (rule R170). -/
theorem drives_sdaFall :
    Drives ⟨false, true, true, z⟩ (sdaEvents false) (if z then [.start] else []) ⟨true, false, true, z⟩ := by
  cases z <;> exact ⟨rfl, rfl⟩

/-- drive_sda(1) from a low SDA, with SCL high: a STOP (rule R170). -/
theorem drives_sdaRise :
    Drives ⟨true, false, true, true⟩ (sdaEvents true) [.stop] ⟨false, true, true, true⟩ := ⟨rfl, rfl⟩

theorem drives_sample : Drives ⟨x, y, true, z⟩ [.sample .sda b] [] ⟨x, y, true, z⟩ := by
  cases x <;> cases y <;> cases z <;> exact ⟨rfl, rfl⟩

theorem drives_delay (n : Nat) : Drives ⟨x, y, true, z⟩ [.delay n] [] ⟨x, y, true, z⟩ := by
  cases x <;> cases y <;> cases z <;> exact ⟨rfl, rfl⟩

theorem drives_pulseTrigger (c : Params) :
    Drives ⟨x, y, true, z⟩ (pulseEvents c .trigger) [] ⟨x, y, true, z⟩ := by
  unfold pulseEvents
  split <;> cases x <;> cases y <;> cases z <;> exact ⟨rfl, rfl⟩

/-! The edges of the sequences (rules R162 to R165). -/

/-- One data bit: one rising edge, at which msda is the bit (rule R76). -/
theorem drives_writeBit :
    Drives ⟨x, y, true, false⟩ (writeBitEvents d b) [.rise b] ⟨!b, b, true, false⟩ := by
  have h := drives_append (drives_append (drives_sda x y b) (drives_sclHigh d (!b) b false))
    (drives_sclLow d (!b) b true)
  simpa [writeBitEvents] using h

theorem drives_writeBits (a : Byte) (is : List Nat) : ∃ x' y',
    Drives ⟨x, y, true, false⟩ (is.flatMap fun i => writeBitEvents d (a.getLsbD i))
      (is.map fun i => .rise (a.getLsbD i)) ⟨x', y', true, false⟩ := by
  induction is generalizing x y with
  | nil => exact ⟨x, y, rfl, rfl⟩
  | cons i is ih =>
    obtain ⟨x', y', h⟩ := ih (!a.getLsbD i) (a.getLsbD i)
    exact ⟨x', y', drives_append (drives_writeBit d x y (a.getLsbD i)) h⟩

/-- The edges of a byte the master writes: its bits, most significant first, then SDA released (rules R76,
R171). -/
def byteEdges (a : Byte) : List BusEdge :=
  [7, 6, 5, 4, 3, 2, 1, 0].map (fun i => BusEdge.rise (a.getLsbD i)) ++ [BusEdge.rise true]

/-- write_byte_seq puts its byte on the bus, whatever SDA and SCL were before it. -/
theorem drives_writeByte (a : Byte) :
    Drives ⟨x, y, true, z⟩ (writeByteEvents d a b) (byteEdges a) ⟨false, true, true, false⟩ := by
  obtain ⟨x', y', hbits⟩ := drives_writeBits d x y a [7, 6, 5, 4, 3, 2, 1, 0]
  have hhead := drives_append (drives_append (drives_append (drives_sclLow d x y z) hbits)
    (drives_sda x' y' true)) (drives_sclHigh d false true false)
  have h := drives_append (drives_append hhead (drives_sample false true true b))
    (drives_sclLow d false true true)
  simpa [writeByteEvents, writeHeadEvents, byteEdges] using h

/-- START from a released SDA: one START, then its byte (rules R162, R170). -/
theorem drives_start (c : Params) (a : Byte) :
    Drives ⟨false, true, true, z⟩ (startEvents c d a b)
      ((if z then [] else [BusEdge.rise true]) ++ BusEdge.start :: byteEdges a)
      ⟨false, true, true, false⟩ := by
  have hhead := drives_append (drives_append (drives_append (drives_pulseTrigger false true z c)
    (drives_delay false true z c.startSettleUs)) (drives_sclHigh d false true z)) (drives_sdaFall true)
  have h := drives_append hhead (drives_writeByte d true false true b a)
  simpa [startEvents, startHeadEvents] using h

/-- stop_seq from a released SDA: one STOP, and where SCL was high a START before it (rules R163, R170). -/
theorem drives_stop :
    Drives ⟨false, true, true, z⟩ (stopEvents d) (if z then [.start, .stop] else [.rise false, .stop])
      ⟨false, true, true, true⟩ := by
  have h := drives_append (drives_append (drives_sdaFall z) (drives_sclHigh d true false z)) drives_sdaRise
  cases z <;> simpa [stopEvents] using h

/-- READ_BYTE's loop holds SDA released (rule R165). -/
theorem drives_readBits (bs : List Bool) :
    Drives ⟨false, true, true, false⟩ (bs.flatMap (readBitEvents d))
      (List.replicate bs.length (.rise true)) ⟨false, true, true, false⟩ := by
  induction bs with
  | nil => exact ⟨rfl, rfl⟩
  | cons b bs ih =>
    have h := drives_append (drives_append (drives_append (drives_sclHigh d false true false)
      (drives_sample false true true b)) (drives_sclLow d false true true)) ih
    simpa [readBitEvents, List.replicate_succ] using h

/-- READ_BYTE from held (rules R165, R171, R172). -/
theorem drives_readByte (bs : List Bool) (last : Bool) :
    Drives ⟨false, true, true, false⟩ (readByteEvents d bs last)
      (List.replicate bs.length (BusEdge.rise true) ++ BusEdge.rise last ::
        (if last then [BusEdge.rise false, BusEdge.stop] else [])) ⟨false, true, true, last⟩ := by
  have hack := drives_append (drives_append (drives_append (drives_readBits d bs)
    (drives_sda false true last)) (drives_sclHigh d (!last) last false)) (drives_sclLow d (!last) last true)
  cases last
  · simpa [readByteEvents] using drives_append hack (drives_sda true false true)
  · simpa [readByteEvents] using drives_append hack (drives_stop d false)

end

/-! The commands on the wire. -/

theorem wiresOf_released {level : Bool} (h : s.dirBit .sda = false ∧ s.outBit .sda = true ∧
    s.dirBit .scl = true ∧ s.outBit .scl = level) :
    wiresOf s.params s.gpio = ⟨false, true, true, level⟩ := by
  obtain ⟨h1, h2, h3, h4⟩ := h
  change Wires.mk (s.dirBit .sda) (s.outBit .sda) (s.dirBit .scl) (s.outBit .scl) = _
  rw [h1, h2, h3, h4]

/-- Settles O49: the bits of the byte's edges. -/
theorem writeByteOnTheWire : Obligations.WriteByteOnTheWire := by
  intro s t d hr hscl he hm
  obtain ⟨-, es, ⟨sampled, rfl⟩, htrace, -⟩ := exec_done hr he hm
  refine ⟨_, htrace.trans (List.append_assoc ..), ?_⟩
  have hw : wiresOf s.params s.gpio = ⟨s.dirBit .sda, s.outBit .sda, true, s.outBit .scl⟩ := by
    rw [← hscl]; rfl
  obtain ⟨-, -, hbits⟩ := view_of_drives hr hw (drives_writeByte s.cfgDelay _ _ _ sampled d) t.result
  rw [hbits]
  rfl

/-- Settles O50: the count of STARTs and STOPs among the edges, by the level of SCL before. -/
theorem startAndStopOnTheBus : Obligations.StartAndStopOnTheBus := by
  intro s t hr hm
  have hstop {level : Bool} (h : wiresOf s.params s.gpio = ⟨false, true, true, level⟩)
      (he : exec .stop s = .next t) : ∃ es, t.trace = s.trace ++ es ∧
        startsIn s.lines (s.viewOf es) = (if level then 1 else 0) ∧ stopsIn s.lines (s.viewOf es) = 1 := by
    obtain ⟨-, es, rfl, htrace, -⟩ := exec_done hr he hm
    refine ⟨_, htrace.trans (List.append_assoc ..), ?_⟩
    obtain ⟨hstarts, hstops, -⟩ := view_of_drives hr h (drives_stop s.cfgDelay level) t.result
    rw [hstarts, hstops]
    cases level <;> exact ⟨rfl, rfl⟩
  refine ⟨fun a hbus he => ?_, fun hbus he => hstop (wiresOf_released hbus) he,
    fun hbus he => hstop (wiresOf_released hbus) he⟩
  obtain ⟨level, hw⟩ : ∃ level, wiresOf s.params s.gpio = ⟨false, true, true, level⟩ :=
    hbus.elim (fun h => ⟨true, wiresOf_released h⟩) (fun h => ⟨false, wiresOf_released h⟩)
  obtain ⟨-, es, ⟨sampled, rfl⟩, htrace, -⟩ := exec_done hr he hm
  refine ⟨_, htrace.trans (List.append_assoc ..), ?_⟩
  obtain ⟨hstarts, hstops, -⟩ :=
    view_of_drives hr hw (drives_start s.cfgDelay level sampled s.params a) t.result
  rw [hstarts, hstops]
  cases level <;> exact ⟨rfl, rfl⟩

/-- Settles O51: the edges of READ_BYTE from held. -/
theorem readByteOnTheWire : Obligations.ReadByteOnTheWire := by
  intro s t last hr hbus he hm
  obtain ⟨-, es, ⟨bs, hlen, rfl⟩, htrace, -⟩ := exec_done hr he hm
  refine ⟨_, htrace.trans (List.append_assoc ..), ?_⟩
  obtain ⟨hstarts, hstops, hbits⟩ :=
    view_of_drives hr (wiresOf_released hbus) (drives_readByte s.cfgDelay bs last) t.result
  rw [hstarts, hstops, hbits, hlen]
  cases last <;> exact ⟨rfl, rfl, rfl⟩

end Sys2Proof.Machine
end

section
/-! The transfers of the host software (rules R200 to R213): the begin of LOAD and SAVE, and their phases, each one
command. -/

namespace Sys2Proof.Machine

variable {s t u : State} {job : Job} {ph : Phase} {parent : Option Flash} {op : Xfer}

/-! The begin of a transfer (rules R200 to R203, R245, R248). -/

section
variable {page offset buf count : Nat}

theorem beginTransfer_of_range (h : 511 < page ∨ 255 < offset) :
    s.beginTransfer op page offset buf count parent = s.refuse := if_pos h

theorem beginTransfer_of_unset (hp : page ≤ 511) (ho : offset ≤ 255) (ha : s.addrSet = false) :
    s.beginTransfer op page offset buf count parent = s.faultedWith .unconfigured := by
  rw [State.beginTransfer, if_neg (by omega), if_pos ha]
  rfl

theorem beginTransfer_of_set (hp : page ≤ 511) (ho : offset ≤ 255) (ha : s.addrSet = true) :
    s.beginTransfer op page offset buf count parent =
      s.setTask (.transfer ⟨op, devSelect s.params s.configuredAddr page, BitVec.ofNat 8 page,
        BitVec.ofNat 8 offset, buf, count⟩ (.start 0) parent) := by
  rw [State.beginTransfer, if_neg (by omega), if_neg (by simp [ha])]
  rfl

end

/-- Settles O54: a queued LOAD or SAVE is the begin of its transfer. -/
theorem loadAndSaveBegin : Obligations.LoadAndSaveBegin := by
  intro s op page offset buf count q hs ht hq
  have hstep : step s = .next ((s.dequeued q).beginTransfer op page offset buf count none) := by
    cases op <;> exact step_of_queue_cons hs ht hq
  rw [hstep]
  refine ⟨fun h => ?_, fun hp ho ha => ?_, fun hp ho ha => ?_⟩
  · rw [beginTransfer_of_range h]
    rfl
  · rw [beginTransfer_of_unset (s := s.dequeued q) hp ho ha]
    rfl
  · rw [beginTransfer_of_set (s := s.dequeued q) hp ho ha]
    exact ⟨_, rfl, rfl, rfl, BitVec.toNat_ofNat _ _,
      (BitVec.toNat_ofNat _ _).trans (Nat.mod_eq_of_lt (by omega)), rfl, rfl⟩

/-! The phases of a transfer (rules R203 to R209). -/

theorem wellFormed_phaseCommand (c : Params) (m : Memory) (job : Job) (ph : Phase) :
    (phaseCommand m job ph).wellFormed c = true := by
  cases ph
  case data j => rw [phaseCommand]; cases job.op <;> rfl
  all_goals rfl

/-- A sequence that returns says so to the host or to the iterator (rules R207, R208, R225). -/
theorem hasReturned_sequenceReturn (s : State) (job : Job) (n : Nat) (parent : Option Flash) :
    (s.sequenceReturn job n parent).HasReturned job n parent := by
  cases parent
  · exact ⟨rfl, rfl⟩
  · rfl

theorem sequenceReturn_eq_setHost (s : State) (job : Job) (n : Nat) (parent : Option Flash) :
    ∃ h : HostSide, s.sequenceReturn job n parent = s.setHost h ∧ h.mem = s.host.mem := by
  cases parent <;> exact ⟨_, rfl, rfl⟩

/-! Where the data phase goes from byte j - 1 (rules R207 to R209). -/

theorem toData_of_lt {j : Nat} (h : j < job.count) (s : State) (parent : Option Flash) :
    s.toData job j parent = s.setTask (.transfer job (.data j) parent) := if_pos h

theorem toData_load_of_le {j : Nat} (h : job.count ≤ j) (hop : job.op = .load) (s : State)
    (parent : Option Flash) : s.toData job j parent = s.sequenceReturn job job.count parent := by
  rw [State.toData, if_neg (by omega), hop]

theorem toData_save_of_le {j : Nat} (h : job.count ≤ j) (hop : job.op = .save) (s : State)
    (parent : Option Flash) :
    s.toData job j parent = s.setTask (.transfer job (.stop job.count) parent) := by
  rw [State.toData, if_neg (by omega), hop]

theorem toData_eq_setHost (s : State) (job : Job) (j : Nat) (parent : Option Flash) :
    ∃ h : HostSide, s.toData job j parent = s.setHost h ∧ h.mem = s.host.mem := by
  by_cases hj : j < job.count
  · exact ⟨_, toData_of_lt hj s parent, rfl⟩
  · cases hop : job.op with
    | load =>
      rw [toData_load_of_le (by omega) hop]
      exact sequenceReturn_eq_setHost ..
    | save => exact ⟨_, toData_save_of_le (by omega) hop s parent, rfl⟩

/-- Only the acknowledgment of the addressing phase's START is looked at (rules R203, R204). -/
theorem phaseDone_start (u : State) (job : Job) (parent : Option Flash) (r : Word) (n : Nat) :
    u.phaseDone job parent r (.start n) =
      u.setTask (.transfer job (if ackBit r then .page else .pulse n) parent) := by
  rw [State.phaseDone]
  split <;> rfl

theorem phaseDone_offset (u : State) (job : Job) (parent : Option Flash) (r : Word) :
    u.phaseDone job parent r .offset = u.setTask (.transfer job (match job.op with
      | .load => .readStart
      | .save => if 0 < job.count then .data 0 else .stop job.count) parent) := by
  rw [State.phaseDone]
  cases hop : job.op with
  | load => rfl
  | save =>
    by_cases hc : 0 < job.count
    · simp only [toData_of_lt hc, if_pos hc]
    · simp only [toData_save_of_le (Nat.le_of_not_lt hc) hop, if_neg hc]

/-- What the sequence does after a phase's command changes the host alone. -/
theorem phaseDone_eq_setHost (u : State) (job : Job) (parent : Option Flash) (r : Word) (ph : Phase) :
    ∃ h : HostSide, u.phaseDone job parent r ph = u.setHost h := by
  have htoData (u : State) (j : Nat) : ∃ h, u.toData job j parent = u.setHost h :=
    (toData_eq_setHost u job j parent).imp fun _ h => h.1
  cases ph with
  | start n => exact ⟨_, phaseDone_start ..⟩
  | pulse n => exact ⟨_, rfl⟩
  | page => exact ⟨_, rfl⟩
  | offset => exact ⟨_, phaseDone_offset ..⟩
  | readStart => exact htoData u 0
  | data j =>
    rw [State.phaseDone]
    split
    · exact htoData (u.storeByte _ _) (j + 1)
    · exact htoData u (j + 1)
  | stop n => exact (sequenceReturn_eq_setHost u job n parent).imp fun _ h => h.1

/-- One step of a transfer that no model fault ended: CmdBegin of the phase's command is the first new
event, and the host does what the phase says with the RESULT it read, its memory being as before until then (rule R200). -/
theorem step_of_phase (ht : s.host.task = .transfer job ph parent) (h : step s = .next t)
    (hm : t.mf = none) :
    (∃ es, t.trace = s.trace ++ .cmdBegin (encode (phaseCommand s.host.mem job ph)) :: es) ∧
      ∃ u : State, u.params = s.params ∧ u.host.mem = s.host.mem ∧
        t = u.phaseDone job parent t.result ph := by
  obtain ⟨hrefused, hmf, hparams, -⟩ := step_cases h
  rw [step_of_transfer ⟨hrefused, hmf, hparams⟩ ht] at h
  obtain ⟨u, es, -, hp, hhost, htrace, hdone⟩ :=
    hostCommand_done (decode_encode (wellFormed_phaseCommand s.params s.host.mem job ph)) hm h
  obtain ⟨host, hset⟩ := phaseDone_eq_setHost (u.give u.result) job parent u.result ph
  rw [← hdone] at hset
  have hmem : u.host.mem = s.host.mem := by rw [hhost]
  refine ⟨⟨es, by rw [hset]; exact htrace⟩, u.give u.result, hp, hmem, ?_⟩
  rw [show t.result = u.result by rw [hset]; rfl]
  exact hdone

/-- Settles O55: each phase's command, and what the sequence makes of its RESULT. -/
theorem addressingPhaseRetries : Obligations.AddressingPhaseRetries := by
  intro s t job n parent h hm
  refine ⟨fun ht => ?_, fun ht => ?_, fun ht => ?_, fun ht => ?_⟩ <;>
    obtain ⟨hevents, u, hp, -, hu⟩ := step_of_phase ht h hm <;>
    refine ⟨hevents, (congrArg (·.host.task) hu).trans ?_⟩
  · rw [phaseDone_start]
    rfl
  · rw [State.phaseDone, hp]
    rfl
  · rfl
  · rw [phaseDone_offset]
    cases job.op <;> rfl

/-- Settles O56: LOAD stores its byte before the sequence goes on, which itself keeps the memory. -/
theorem dataPhaseMovesBytes : Obligations.DataPhaseMovesBytes := by
  intro s t job j parent h hm ht
  obtain ⟨hevents, u, -, hmem, hu⟩ := step_of_phase ht h hm
  refine ⟨fun hop => ?_, fun hop => ?_⟩ <;> simp only [State.phaseDone, phaseCommand, hop] at hevents hu
  · refine ⟨hevents, fun hwf x => ?_⟩
    obtain ⟨host, hset, hkeep⟩ :=
      toData_eq_setHost (u.storeByte (job.buf + j) (resultByte t.result)) job (j + 1) parent
    have htmem : t.host.mem = memSet s.host.mem (job.buf + j) (resultByte t.result) := by
      rw [congrArg (·.host.mem) (hu.trans hset), ← hmem]
      exact hkeep
    rw [htmem, memByte_memSet hwf]
    rfl
  · refine ⟨hevents, ?_⟩
    obtain ⟨host, hset, hkeep⟩ := toData_eq_setHost u job (j + 1) parent
    rw [congrArg (·.host.mem) (hu.trans hset), ← hmem]
    exact hkeep

/-- Settles O57: where each phase's return or next phase comes from. -/
theorem dataPhaseEndsAndReturns : Obligations.DataPhaseEndsAndReturns := by
  intro s t job parent h hm
  refine ⟨fun hop ht => ?_, fun j ht => ?_, fun n ht => ?_⟩ <;>
    obtain ⟨hevents, u, -, -, hu⟩ := step_of_phase ht h hm
  · refine ⟨hevents, fun hc => ?_, fun hc => ?_⟩
    · rw [hu, State.phaseDone, toData_of_lt hc]
      rfl
    · rw [hu, State.phaseDone, toData_load_of_le hc.le hop, hc]
      exact hasReturned_sequenceReturn ..
  · obtain ⟨u', hu'⟩ : ∃ u' : State, t = u'.toData job (j + 1) parent := by
      rw [State.phaseDone] at hu
      split at hu <;> exact ⟨_, hu⟩
    refine ⟨fun hj => ?_, fun hj hop => ?_, fun hj hop => ?_⟩
    · rw [hu', toData_of_lt hj]
      rfl
    · rw [hu', toData_load_of_le hj hop]
      exact hasReturned_sequenceReturn ..
    · rw [hu', toData_save_of_le hj hop]
      rfl
  · refine ⟨hevents, ?_⟩
    rw [hu]
    exact hasReturned_sequenceReturn ..

end Sys2Proof.Machine
end

section
/-! The flash block iterator (rules R220 to R228): its chunks, and its turns as host steps. -/

namespace Sys2Proof.Machine

variable {s : State} {op : Xfer} {bsize total addr remaining ptr fuel : Nat}

/-! The chunk of one turn (rule R222). -/

/-- The chunk at `addr`, where there is one. -/
def chunkAt (bsize addr remaining ptr : Nat) : Chunk :=
  ⟨addr / bsize, addr % bsize, min remaining (bsize - addr % bsize), ptr⟩

theorem nextChunk_of_end (h : remaining = 0 ∨ total ≤ addr / bsize) :
    nextChunk bsize total addr remaining ptr = none := by
  unfold nextChunk
  split_ifs with h1 h2
  · rfl
  · rfl
  · exact absurd h (by tauto)

theorem nextChunk_of_lt (hr : 0 < remaining) (hb : addr / bsize < total) :
    nextChunk bsize total addr remaining ptr = some (chunkAt bsize addr remaining ptr) := by
  rw [nextChunk, if_neg (by omega), if_neg (by omega)]
  rfl

/-- The offset and size of a chunk: inside its block, and up to the end of the block or of the range. -/
theorem chunkAt_size (hbs : 0 < bsize) (hr : 0 < remaining) :
    1 ≤ (chunkAt bsize addr remaining ptr).size ∧ (chunkAt bsize addr remaining ptr).size ≤ remaining ∧
      addr % bsize + (chunkAt bsize addr remaining ptr).size ≤ bsize ∧
      ((chunkAt bsize addr remaining ptr).size < remaining →
        addr % bsize + (chunkAt bsize addr remaining ptr).size = bsize) := by
  have hlt := Nat.mod_lt addr hbs
  simp only [chunkAt]
  omega

/-- A chunk lies below the end of the device. -/
theorem chunkAt_below (hbs : 0 < bsize) (hr : 0 < remaining) (hb : addr / bsize < total) :
    addr + (chunkAt bsize addr remaining ptr).size ≤ bsize * total := by
  obtain ⟨-, -, hfit, -⟩ := chunkAt_size (addr := addr) (ptr := ptr) hbs hr
  have haddr := Nat.div_add_mod addr bsize
  calc addr + (chunkAt bsize addr remaining ptr).size
      ≤ bsize * (addr / bsize) + bsize := by omega
    _ = bsize * (addr / bsize + 1) := rfl
    _ ≤ bsize * total := Nat.mul_le_mul_left bsize hb

/-! The list of chunks (rules R222, R223). -/

theorem chunksFrom_of_end (h : remaining = 0 ∨ total ≤ addr / bsize) :
    chunksFrom bsize total fuel addr remaining ptr = [] := by
  cases fuel with
  | zero => rfl
  | succ fuel => rw [chunksFrom, nextChunk_of_end h]

theorem chunksFrom_of_lt (hr : 0 < remaining) (hb : addr / bsize < total) :
    chunksFrom bsize total (fuel + 1) addr remaining ptr =
      chunkAt bsize addr remaining ptr ::
        chunksFrom bsize total fuel (addr + (chunkAt bsize addr remaining ptr).size)
          (remaining - (chunkAt bsize addr remaining ptr).size)
          (ptr + (chunkAt bsize addr remaining ptr).size) := by
  rw [chunksFrom, nextChunk_of_lt hr hb]

/-- A loop ends at once, or takes a chunk. -/
theorem end_or_lt (bsize total addr remaining : Nat) :
    (remaining = 0 ∨ total ≤ addr / bsize) ∨ (0 < remaining ∧ addr / bsize < total) := by omega

theorem mem_chunksFrom (hbs : 0 < bsize) {k : Chunk}
    (hk : k ∈ chunksFrom bsize total fuel addr remaining ptr) :
    1 ≤ k.size ∧ k.offset + k.size ≤ bsize ∧ k.block < total ∧
      k.block * bsize + k.offset + ptr = addr + k.ptr := by
  induction fuel generalizing addr remaining ptr with
  | zero => cases hk
  | succ fuel ih =>
    obtain h | ⟨hr, hb⟩ := end_or_lt bsize total addr remaining
    · rw [chunksFrom_of_end h] at hk
      cases hk
    · rw [chunksFrom_of_lt hr hb] at hk
      obtain rfl | hk := List.mem_cons.1 hk
      · obtain ⟨hpos, -, hfit, -⟩ := chunkAt_size (addr := addr) (ptr := ptr) hbs hr
        exact ⟨hpos, hfit, hb, congrArg (· + ptr) (Nat.div_add_mod' addr bsize)⟩
      · obtain ⟨hpos, hfit, hblock, hplace⟩ := ih hk
        exact ⟨hpos, hfit, hblock, by omega⟩

/-- Settles O58: the pointers start at 0. -/
theorem chunksStayInBlocks : Obligations.ChunksStayInBlocks := fun _ _ _ _ hbs _ hk =>
  mem_chunksFrom hbs hk

theorem head_chunksFrom {k : Chunk} (hk : (chunksFrom bsize total fuel addr remaining ptr).head? = some k) :
    0 < remaining ∧ k.ptr = ptr ∧ k.offset = addr % bsize := by
  cases fuel with
  | zero => cases hk
  | succ fuel =>
    obtain h | ⟨hr, hb⟩ := end_or_lt bsize total addr remaining
    · rw [chunksFrom_of_end h] at hk
      cases hk
    · rw [chunksFrom_of_lt hr hb] at hk
      cases hk
      exact ⟨hr, rfl, rfl⟩

/-- A chunk that leaves some of the range ends at the end of its block, so the next one is at offset 0. -/
theorem isChain_chunksFrom (hbs : 0 < bsize) :
    (chunksFrom bsize total fuel addr remaining ptr).IsChain
      (fun a b => b.ptr = a.ptr + a.size ∧ b.offset = 0) := by
  induction fuel generalizing addr remaining ptr with
  | zero => exact .nil
  | succ fuel ih =>
    obtain h | ⟨hr, hb⟩ := end_or_lt bsize total addr remaining
    · rw [chunksFrom_of_end h]
      exact .nil
    · rw [chunksFrom_of_lt hr hb]
      refine ih.cons fun k hk => ?_
      obtain ⟨hleft, hptr, hoffset⟩ := head_chunksFrom hk
      obtain ⟨-, -, -, hfull⟩ := chunkAt_size (addr := addr) (ptr := ptr) hbs hr
      refine ⟨hptr, ?_⟩
      rw [hoffset, ← Nat.mod_add_mod, hfull (by omega), Nat.mod_self]

theorem serviced_cons (k : Chunk) (ks : List Chunk) : serviced (k :: ks) = k.size + serviced ks := rfl

theorem serviced_chunksFrom (hbs : 0 < bsize) (hfuel : remaining ≤ fuel) :
    serviced (chunksFrom bsize total fuel addr remaining ptr) = min remaining (bsize * total - addr) := by
  induction fuel generalizing addr remaining ptr with
  | zero =>
    obtain rfl : remaining = 0 := by omega
    simp [chunksFrom, serviced]
  | succ fuel ih =>
    obtain h | ⟨hr, hb⟩ := end_or_lt bsize total addr remaining
    · rw [chunksFrom_of_end h]
      obtain rfl | h := h
      · simp [serviced]
      · have hend : bsize * total ≤ addr := (Nat.mul_le_mul_left bsize h).trans (Nat.mul_div_le addr bsize)
        simp [serviced, Nat.sub_eq_zero_of_le hend]
    · obtain ⟨hpos, hle, -, -⟩ := chunkAt_size (addr := addr) (ptr := ptr) hbs hr
      have hbelow := chunkAt_below (ptr := ptr) hbs hr hb
      rw [chunksFrom_of_lt hr hb, serviced_cons, ih (by omega)]
      omega

/-- Settles O59: with fuel for every byte, the chunks stop only at the end of the range or of the device. -/
theorem chunksTileTheRange : Obligations.ChunksTileTheRange := by
  intro bsize total addr bytes hbs
  refine ⟨fun k hk => ?_, isChain_chunksFrom hbs, ?_⟩
  · obtain ⟨-, hptr, -⟩ := head_chunksFrom hk
    exact hptr
  · rw [chunks, serviced_chunksFrom hbs le_rfl]
    split <;> omega

/-! The rest of the list after the first chunk. -/

/-- More fuel than bytes makes no difference. -/
theorem chunksFrom_fuel (hbs : 0 < bsize) {fuel' : Nat} (h : remaining ≤ fuel) (h' : remaining ≤ fuel') :
    chunksFrom bsize total fuel addr remaining ptr = chunksFrom bsize total fuel' addr remaining ptr := by
  induction fuel generalizing fuel' addr remaining ptr with
  | zero => rw [chunksFrom_of_end (.inl (by omega)), chunksFrom_of_end (.inl (by omega))]
  | succ fuel ih =>
    obtain hend | ⟨hr, hb⟩ := end_or_lt bsize total addr remaining
    · rw [chunksFrom_of_end hend, chunksFrom_of_end hend]
    · obtain ⟨fuel', rfl⟩ := Nat.exists_eq_add_one_of_ne_zero (n := fuel') (by omega)
      obtain ⟨hpos, -, -, -⟩ := chunkAt_size (addr := addr) (ptr := ptr) hbs hr
      rw [chunksFrom_of_lt hr hb, chunksFrom_of_lt hr hb, ih (fuel' := fuel') (by omega) (by omega)]

/-- The loop's pointer only shifts the chunks' pointers. -/
theorem chunksFrom_ptr (base : Nat) :
    chunksFrom bsize total fuel addr remaining (base + ptr) =
      (chunksFrom bsize total fuel addr remaining ptr).map fun k => { k with ptr := base + k.ptr } := by
  induction fuel generalizing addr remaining ptr with
  | zero => rfl
  | succ fuel ih =>
    obtain hend | ⟨hr, hb⟩ := end_or_lt bsize total addr remaining
    · rw [chunksFrom_of_end hend, chunksFrom_of_end hend]
      rfl
    · rw [chunksFrom_of_lt hr hb, chunksFrom_of_lt hr hb, List.map_cons, ← ih, ← Nat.add_assoc]
      rfl

theorem chunks_of_lt (hbs : 0 < bsize) (hr : 0 < remaining) (hb : addr / bsize < total) :
    chunks bsize total addr remaining = chunkAt bsize addr remaining 0 ::
      (chunks bsize total (addr + (chunkAt bsize addr remaining 0).size)
        (remaining - (chunkAt bsize addr remaining 0).size)).map
        fun k => { k with ptr := (chunkAt bsize addr remaining 0).size + k.ptr } := by
  obtain ⟨fuel, rfl⟩ := Nat.exists_eq_add_one_of_ne_zero hr.ne'
  obtain ⟨hpos, -, -, -⟩ := chunkAt_size (addr := addr) (ptr := 0) hbs hr
  rw [chunks, chunksFrom_of_lt hr hb, chunks, ← chunksFrom_ptr, Nat.zero_add,
    chunksFrom_fuel hbs (by omega) le_rfl]
  rfl

/-! The flash layer's steps (rules R220, R225, R227). -/

theorem flashBound_iff {c : Params} :
    flashBound c = true ↔ 1 ≤ c.blockSize ∧ c.blockSize ≤ 256 ∧ c.totalBlocks ≤ 512 := by
  simp [flashBound, and_assoc]

theorem beginFlash_of_bound (h : flashBound s.params = true) (op : Xfer) (addr buf bytes : Nat) :
    s.beginFlash op addr buf bytes = s.setTask (.iterate ⟨op, addr, bytes, 0, 0, buf⟩) := if_pos h

theorem beginFlash_refused (h : flashBound s.params = false) (op : Xfer) (addr buf bytes : Nat) :
    s.beginFlash op addr buf bytes = s.refuse := if_neg (by simp [h])

theorem iterateTurn_of_end {f : Flash}
    (h : f.remaining = 0 ∨ s.params.totalBlocks ≤ f.addr / s.params.blockSize) :
    s.iterateTurn f = s.setHost { s.host with task := .idle, returned := some f.counter } := by
  rw [State.iterateTurn, nextChunk_of_end h]

theorem iterateTurn_of_lt {f : Flash} (hr : 0 < f.remaining)
    (hb : f.addr / s.params.blockSize < s.params.totalBlocks) :
    s.iterateTurn f = s.beginTransfer f.op (f.addr / s.params.blockSize) (f.addr % s.params.blockSize)
      (f.buf + f.ptr) (chunkAt s.params.blockSize f.addr f.remaining f.ptr).size (some f) := by
  rw [State.iterateTurn, nextChunk_of_lt hr hb]
  rfl

/-- Settles O60: the device's bound decides the begin; a turn goes by its chunk, whose block and offset LOAD
and SAVE take on such a device. -/
theorem flashBeginsAndIterates : Obligations.FlashBeginsAndIterates := by
  refine ⟨fun s op addr buf bytes q hs ht hq => ?_, fun s f hs ht hb1 hb2 hb3 => ?_⟩
  · have hstep : step s = .next ((s.dequeued q).beginFlash op addr buf bytes) := by
      cases op <;> exact step_of_queue_cons hs ht hq
    rw [hstep]
    refine ⟨fun h => ?_, fun hb1 hb2 hb3 => ?_⟩
    · have hbound : flashBound s.params = false :=
        Bool.eq_false_iff.2 (mt flashBound_iff.1 (by omega))
      rw [beginFlash_refused (s := s.dequeued q) hbound]
      rfl
    · rw [beginFlash_of_bound (s := s.dequeued q) (flashBound_iff.2 ⟨hb1, hb2, hb3⟩)]
      rfl
  · intro bsize total block offset size job
    rw [step_of_iterate hs ht]
    refine ⟨fun h => ⟨chunksFrom_of_end h, ?_⟩,
      fun hr hb => ⟨chunks_of_lt hb1 hr hb, fun ha => ?_, fun ha => ?_⟩⟩
    · rw [iterateTurn_of_end h]
      rfl
    all_goals
      have hpage : block ≤ 511 := by omega
      have hoffset : offset ≤ 255 := by
        have : offset < bsize := Nat.mod_lt _ hb1
        omega
      rw [iterateTurn_of_lt hr hb]
    · rw [beginTransfer_of_set hpage hoffset ha]
      rfl
    · rw [beginTransfer_of_unset hpage hoffset ha]

end Sys2Proof.Machine
end
